-- ==== Sys2Proof/Word.lean ====
section
/-! DEFINITION. The words of CORE: the byte, the 9-bit program counter, the 3-bit register index (00_scope.md R7, R9, 40_dispatch_loop.md R116). -/

namespace Sys2Proof

/-- A register, memory cell, operand or flags byte: an unsigned integer 0 to 255 (R9). -/
abbrev Byte := BitVec 8

/-- The program counter's width: 9 bits, no wrap-around of its own (R7, R30). -/
abbrev PcWord := BitVec 9

/-- The number of a general register, 0 to 7 (R21). -/
abbrev RegIndex := Fin 8

end Sys2Proof
end

