-- ==== Sys2Proof/Syntax.lean ====
section
/-! DEFINITION. The twelve instructions (30_encoding.md R77), each with the operand bytes its format gives it (R73, R74). -/

namespace Sys2Proof

/-- An instruction with its raw operand bytes. A register operand is the WHOLE byte (R75): a byte 8 to 255 is a form of the
instruction that takes `RegisterIndexOutOfBounds`, so it is written here as it stands in memory. -/
inductive Instr where
  /-- `ADD a,b`, R130 -/
  | add (a b : Byte)
  /-- `SUB a,b`, R131 -/
  | sub (a b : Byte)
  /-- `MUL a,b`, R132 -/
  | mul (a b : Byte)
  /-- `CMP a,b`, R133 -/
  | cmp (a b : Byte)
  /-- `PUSH a`, R151 -/
  | push (a : Byte)
  /-- `POP a`, R152 -/
  | pop (a : Byte)
  /-- `CALL a`, R165 -/
  | call (a : Byte)
  /-- `RET`, R166 -/
  | ret
  /-- `JMP a`, R167 -/
  | jmp (a : Byte)
  /-- `LDI a,imm`, R185: `imm` is an immediate, never an index (R76) -/
  | ldi (a imm : Byte)
  /-- `PRN a`, R186 -/
  | prn (a : Byte)
  /-- `HLT`, R187 -/
  | hlt
  deriving DecidableEq, Repr

/-- The operand bytes in memory order (R53, R73). -/
def Instr.operands : Instr → List Byte
  | .add a b => [a, b]
  | .sub a b => [a, b]
  | .mul a b => [a, b]
  | .cmp a b => [a, b]
  | .push a => [a]
  | .pop a => [a]
  | .call a => [a]
  | .ret => []
  | .jmp a => [a]
  | .ldi a imm => [a, imm]
  | .prn a => [a]
  | .hlt => []

/-- The operand bytes that are register indices, in the order they are checked (R107, R203): LDI's second operand is none of them. -/
def Instr.regOperands : Instr → List Byte
  | .add a b => [a, b]
  | .sub a b => [a, b]
  | .mul a b => [a, b]
  | .cmp a b => [a, b]
  | .push a => [a]
  | .pop a => [a]
  | .call a => [a]
  | .ret => []
  | .jmp a => [a]
  | .ldi a _ => [a]
  | .prn a => [a]
  | .hlt => []

end Sys2Proof
end

