-- ==== Sys2Proof/WellFormed.lean ====
section
/-! DEFINITION. Which instructions name registers that exist (30_encoding.md R75): the one check the format has, made of every operand used as an index. -/

namespace Sys2Proof

/-- An operand byte names a register when it is 0 to 7 (R75); nothing is masked. -/
def namesRegister (b : Byte) : Bool := decide (b.toNat < 8)

/-- Every register operand names a register (R75, R203). RET and HLT have none; LDI's immediate is not checked. -/
def Instr.wellFormed (i : Instr) : Bool := i.regOperands.all namesRegister

end Sys2Proof
end

