-- ==== Sys2Proof/Decode.lean ====
section
/-! DEFINITION. The opcode map, the fields of the opcode byte, the decoder and the encoder (30_encoding.md R70 to R84). -/

namespace Sys2Proof

/-! The opcode bytes of R77 (D1: values from general knowledge, not in the source; UNVERIFIED, log 1). -/

def opAdd : Byte := 0xA0
def opSub : Byte := 0xA1
def opMul : Byte := 0xA2
def opCmp : Byte := 0xA7
def opPush : Byte := 0x45
def opPop : Byte := 0x46
def opCall : Byte := 0x50
def opRet : Byte := 0x11
def opJmp : Byte := 0x54
def opLdi : Byte := 0x82
def opPrn : Byte := 0x47
def opHlt : Byte := 0x01

/-- The twelve opcode bytes in the order of the table of R77. -/
def opcodes : List Byte :=
  [opAdd, opSub, opMul, opCmp, opPush, opPop, opCall, opRet, opJmp, opLdi, opPrn, opHlt]

/-- Operand count `n = IR[7:6]` (R71, R104): two bits, so 0 to 3; no opcode has 3 (R81). -/
def opcodeArity (ir : Byte) : BitVec 2 := ir.extractLsb' 6 2

/-- `sets_pc = IR[4]` (R71, R105; bit 4 by 90_conflicts.md C1). -/
def opcodeSetsPc (ir : Byte) : Bool := ir.getLsbD 4

/-- What the fetch unit hands to the decoder: the opcode byte and the two bytes after it (R36, R102, R103). -/
structure Fetched where
  /-- the byte at `pc` -/
  ir : Byte
  /-- the byte at `pc + 1` -/
  opa : Byte
  /-- the byte at `pc + 2` -/
  opb : Byte
  deriving DecidableEq, Repr

/-- Why the decoder rejects three fetched bytes. -/
inductive DecodeError where
  /-- the opcode byte is none of the twelve (R80, R81, R82, R106) -/
  | unknownOpcode (ir : Byte)
  deriving DecidableEq, Repr

/-- Exact match of all eight bits of `IR` (R78); operands are handed over as they stand, exactly as many as the arity says
(R107), and take no part in the choice. Total: every other byte is rejected by name (R80). -/
def decode (f : Fetched) : Except DecodeError Instr :=
  if f.ir = opAdd then .ok (.add f.opa f.opb)
  else if f.ir = opSub then .ok (.sub f.opa f.opb)
  else if f.ir = opMul then .ok (.mul f.opa f.opb)
  else if f.ir = opCmp then .ok (.cmp f.opa f.opb)
  else if f.ir = opPush then .ok (.push f.opa)
  else if f.ir = opPop then .ok (.pop f.opa)
  else if f.ir = opCall then .ok (.call f.opa)
  else if f.ir = opRet then .ok .ret
  else if f.ir = opJmp then .ok (.jmp f.opa)
  else if f.ir = opLdi then .ok (.ldi f.opa f.opb)
  else if f.ir = opPrn then .ok (.prn f.opa)
  else if f.ir = opHlt then .ok .hlt
  else .error (.unknownOpcode f.ir)

/-- The instruction's bytes in memory order: the opcode at the lowest address, then its operands (R53, R70, R74). -/
def encode : Instr → List Byte
  | .add a b => [opAdd, a, b]
  | .sub a b => [opSub, a, b]
  | .mul a b => [opMul, a, b]
  | .cmp a b => [opCmp, a, b]
  | .push a => [opPush, a]
  | .pop a => [opPop, a]
  | .call a => [opCall, a]
  | .ret => [opRet]
  | .jmp a => [opJmp, a]
  | .ldi a imm => [opLdi, a, imm]
  | .prn a => [opPrn, a]
  | .hlt => [opHlt]

/-- The first three bytes of a byte sequence, as the fetch unit latches them (R53); a missing byte reads as zero. -/
def fetchedOfBytes (bs : List Byte) : Fetched :=
  { ir := bs.getD 0 0, opa := bs.getD 1 0, opb := bs.getD 2 0 }

/-- Byte `k` of an instruction whose bits are `w`, bit 0 the least significant bit of the first byte; every bit from `nbits` on is 0. -/
def wordByte (nbits w k : Nat) : Byte := BitVec.ofNat 8 ((w % 2 ^ nbits) / 2 ^ (8 * k))

/-- The three bytes an instruction word occupies in memory. -/
def wordBytes (nbits w : Nat) : List Byte :=
  [wordByte nbits w 0, wordByte nbits w 1, wordByte nbits w 2]

/-- The instruction the decoder reads from an instruction whose bits are `w`, numbered as the opcode table numbers them. -/
def decodeTableWord (nbits w : Nat) : Option Instr :=
  match decode (fetchedOfBytes (wordBytes nbits w)) with
  | .ok i => some i
  | .error _ => none

end Sys2Proof
end

