-- ==== Sys2Proof/Config.lean ====
section
/-! DEFINITION. What the hardware fixes once (00_scope.md R7). There is no model argument and no free value: IMAGE and LOAD_BASE are inputs of reset (R40). -/

namespace Sys2Proof.Config

/-- `MEM_SIZE`: addresses are 0 to 255 (R7, R39). -/
abbrev memSize : Nat := 256

/-- `SP_INDEX`: register 7 is the stack pointer (R7, R23). -/
abbrev spIndex : RegIndex := 7

/-- `LINK_INDEX`: CALL leaves its return address in register 6 (R7, R24). -/
abbrev linkIndex : RegIndex := 6

/-- `STACK_BASE`: the reset value of the stack pointer and the empty-stack threshold (R7, R150). -/
abbrev stackBase : Byte := 0xF4

/-- What a cell that neither the load nor a store has written holds (R43, D5; UNVERIFIED: the spec's own decision, unsafe, log 3). -/
abbrev unlistedByte : Byte := 0x00

end Sys2Proof.Config
end

