-- ==== Sys2Proof/Machine/State.lean ====
section
/-! DEFINITION. The complete state of CORE (10_state.md R20), its reset values (R43), and the reasons a step can stop. -/

namespace Sys2Proof.Machine

/-- The run state (10_state.md R34, 40_dispatch_loop.md R100). -/
inductive RunState where
  /-- the loop takes steps -/
  | running
  /-- entered by HLT only; terminal -/
  | halted
  /-- entered by a fatal fault only; terminal -/
  | faulted
  deriving DecidableEq, Repr

/-- The fault latches (10_state.md R35), written once on entry to `faulted` (60_exceptions.md R208). -/
structure FaultLatches where
  /-- the cause code of R206, 1 to 4 -/
  faultCause : BitVec 3
  /-- `pc` at the start of the faulting step -/
  faultPc : PcWord
  /-- opcode byte, address, operand byte or stack pointer, by the cause (R35) -/
  faultInfo : BitVec 9
  deriving DecidableEq, Repr

/-- What a warning says; POP on an empty stack is the only one (42_stack.md R153, 60_exceptions.md R205). -/
inductive WarningKind where
  /-- POP found `SP >= 0xF4` -/
  | stackEmpty
  deriving DecidableEq, Repr

/-- A record `Warn(StackEmpty, pc)` of the diagnostic stream (42_stack.md R153). -/
structure Warning where
  kind : WarningKind
  /-- the address of the POP -/
  pc : PcWord
  deriving DecidableEq, Repr

/-- Memory as the cells that differ from `Config.unlistedByte`, by rising address (10_state.md R39). -/
abbrev Memory := List Host.Cell

/-- The complete state of CORE (R20). Registers, `FL`, `pc`, memory and the run state are the spec's state; the two streams are
observable sequences the spec keeps beside it (R41), held here because a step's outcome is a state (DESIGN CHOICE, safe, log 7). -/
structure State where
  /-- `x[0]` to `x[7]` (R21) -/
  regs : Vector Byte 8
  /-- the program counter (R28, R30) -/
  pc : PcWord
  /-- the flags byte `0b00000LGE` (R31) -/
  fl : Byte
  /-- the one memory (R39) -/
  mem : Memory
  /-- `Running`, `Halted` or `Faulted` (R34) -/
  run : RunState
  /-- the fault latches; `none` before a fault (R35) -/
  fault : Option FaultLatches
  /-- the output stream `OUT`, oldest byte first (R41) -/
  out : List Byte
  /-- the diagnostic stream `DIAG`, oldest record first (R41) -/
  diag : List Warning
  deriving DecidableEq, Repr

/-- Why there is no next state: the machine is in a terminal state, where the spec has no step (00_scope.md R11, 40_dispatch_loop.md
R100, R113 "require run == Running"). The four fatal faults of the spec are NOT here: each is a next state (60_exceptions.md R208, log 4). -/
inductive Fault where
  /-- raised by `step` in `Halted`; safe: the spec has no successor state there (log 5) -/
  | noStepWhenHalted
  /-- raised by `step` in `Faulted`; safe: the spec has no successor state there (log 5) -/
  | noStepWhenFaulted
  deriving DecidableEq, Repr

/-- Why an instruction has no meaning in the model. -/
inductive Refusal where
  /-- an arm of `exec` that is not modelled yet; safe; no arm of this model uses it -/
  | notModelled (mnemonic : String)
  deriving DecidableEq, Repr

/-- The machine right after reset with an empty image (10_state.md R43, 70_reset_and_hazards.md R241): `pc`, R7, FL[7:3] and `run` are the
source's values, the other zeros the spec's decision D5 (UNVERIFIED, unsafe, logs 2 and 3), the empty latches and streams D14 and D17. -/
def State.reset : State :=
  { regs := #v[0x00, 0x00, 0x00, 0x00, 0x00, 0x00, 0x00, Config.stackBase]
    pc := 0
    fl := 0x00
    mem := []
    run := .running
    fault := none
    out := []
    diag := [] }

end Sys2Proof.Machine
end

