-- ==== Sys2Proof/Machine/Ops.lean ====
section
/-! DEFINITION. The shared operations over registers, memory, streams and the program counter, and the entry into a fatal fault. -/

namespace Sys2Proof.Machine

/-! ### Memory (`memory_array`) -/

/-- The byte a memory holds at an address: the listed one, or what an unlisted cell holds (20_memory.md R51). -/
def Memory.read : Memory → Nat → Byte
  | [], _ => Config.unlistedByte
  | (k, v) :: m, addr => if k = addr then v else Memory.read m addr

/-- Put a cell before the first cell of a higher address. -/
def Memory.insertCell (addr : Nat) (v : Byte) : Memory → Memory
  | [] => [(addr, v)]
  | (k, w) :: m => if addr < k then (addr, v) :: (k, w) :: m else (k, w) :: Memory.insertCell addr v m

/-- Write one byte (R51). Writing what an unlisted cell holds removes the entry, so equal memories are equal lists. -/
def Memory.write (m : Memory) (addr : Nat) (v : Byte) : Memory :=
  let others := m.filter (fun c => c.1 != addr)
  if v = Config.unlistedByte then others else Memory.insertCell addr v others

/-- The canonical form: addresses strictly rising, all below 256 (R39), no entry equal to an unlisted cell. -/
abbrev Memory.wf (m : Memory) : Prop :=
  m.Pairwise (fun c d => c.1 < d.1) ∧ ∀ c ∈ m, c.1 < Config.memSize ∧ c.2 ≠ Config.unlistedByte

/-! ### Fatal faults -/

/-- The four fatal faults with what each records (60_exceptions.md R201 to R204). -/
inductive FatalFault where
  /-- R201: the opcode byte -/
  | unknownOpcode (ir : Byte)
  /-- R202: the address, above 255 -/
  | memoryOutOfBounds (addr : Nat)
  /-- R203: the operand byte, above 7 -/
  | registerIndexOutOfBounds (index : Byte)
  /-- R204: the stack pointer, 0xF4 or above -/
  | stackUnderflow (sp : Byte)
  deriving DecidableEq, Repr

/-- The cause codes (R206). -/
def FatalFault.code : FatalFault → BitVec 3
  | .unknownOpcode _ => 1
  | .memoryOutOfBounds _ => 2
  | .registerIndexOutOfBounds _ => 3
  | .stackUnderflow _ => 4

/-- What `fault_info` records (R206, 10_state.md R35). -/
def FatalFault.info : FatalFault → BitVec 9
  | .unknownOpcode ir => ir.zeroExtend 9
  | .memoryOutOfBounds addr => BitVec.ofNat 9 addr
  | .registerIndexOutOfBounds index => index.zeroExtend 9
  | .stackUnderflow sp => sp.zeroExtend 9

/-- `raise F(info)`: the ONE entry into a fatal fault (R208). It is taken in the state the step began in, so nothing but `run` and the
latches changes (R209). There is no return from it (R210): no instruction leaves `faulted`. -/
def State.raise (s : State) (f : FatalFault) : State :=
  { s with
    run := .faulted
    fault := some { faultCause := f.code, faultPc := s.pc, faultInfo := f.info } }

/-- The outcome of an instruction that takes a fatal fault: a next state (R11). -/
def takeFault (f : FatalFault) (s : State) : Host.Outcome State Fault Refusal := .next (s.raise f)

/-- The fatal fault of an opcode byte the decoder rejects (R106, R201). -/
def faultOfDecodeError : DecodeError → FatalFault
  | .unknownOpcode ir => .unknownOpcode ir

/-! ### Registers (`register_file`) -/

/-- `x[i]` (10_state.md R21): no register is hard-wired. -/
def State.readReg (s : State) (r : RegIndex) : Byte := s.regs[r]

/-- `x[i] <- v` (R21, R22). -/
def State.writeReg (s : State) (r : RegIndex) (v : Byte) : State := { s with regs := s.regs.set r v }

/-- `SP`, another name for `x[7]` (00_scope.md R10, R13). -/
def State.sp (s : State) : Byte := s.readReg Config.spIndex

/-! ### Memory accesses -/

/-- `MemRead(addr, 1)`: out of range above 255, never reduced modulo 256 (20_memory.md R51, R55). -/
def State.memRead (s : State) (addr : Nat) : Except FatalFault Byte :=
  if addr < Config.memSize then .ok (s.mem.read addr) else .error (.memoryOutOfBounds addr)

/-- A data read. Its address is 8 bits wide, so it is always in range (R56). -/
def State.loadByte (s : State) (addr : Byte) : Byte := s.mem.read addr.toNat

/-- `MemWrite(addr, 1, v)`. Every write of CORE has an 8-bit address (40_dispatch_loop.md R116), so it is always in range (R56). -/
def State.storeByte (s : State) (addr : Byte) (v : Byte) : State :=
  { s with mem := s.mem.write addr.toNat v }

/-! ### The stack (42_stack.md R150) -/

/-- The stack is empty exactly when `SP >= 0xF4`: a comparison with the constant (R150, 90_conflicts.md C9). -/
def State.stackEmpty (s : State) : Bool := decide (Config.stackBase ≤ s.sp)

/-- PUSH of a register: decrement `SP` modulo 256, then write the register, read AFTER the decrement, at the new `SP` (R151, D29). -/
def State.pushReg (s : State) (r : RegIndex) : State :=
  let s1 := s.writeReg Config.spIndex (s.sp - 1)
  s1.storeByte s1.sp (s1.readReg r)

/-- `SP <- (SP + 1) mod 256` (R152, 43_control_flow.md R166). -/
def State.incSp (s : State) : State := s.writeReg Config.spIndex (s.sp + 1)

/-! ### Program counter, streams, run state -/

/-- `pc <- t` (00_scope.md R10). -/
def State.writePc (s : State) (t : PcWord) : State := { s with pc := t }

/-- `emit Out(v)` (44_other.md R186, 10_state.md R41). -/
def State.emitOut (s : State) (v : Byte) : State := { s with out := s.out ++ [v] }

/-- `emit Warn(StackEmpty, pc)` (42_stack.md R153, 10_state.md R41). -/
def State.emitStackEmpty (s : State) : State := { s with diag := s.diag ++ [{ kind := .stackEmpty, pc := s.pc }] }

/-- `run <- Halted` (44_other.md R187). -/
def State.halt (s : State) : State := { s with run := .halted }

/-! ### The frame of a step (40_dispatch_loop.md R101) -/

/-- Steps 1 and 2: three reads at `pc`, `pc + 1`, `pc + 2`, unconditional and without wrap; the first one out of range faults
(R102, R103, D8). -/
def State.fetch (s : State) : Except FatalFault Fetched :=
  match s.memRead s.pc.toNat with
  | .error f => .error f
  | .ok ir =>
    match s.memRead (s.pc.toNat + 1) with
    | .error f => .error f
    | .ok opa =>
      match s.memRead (s.pc.toNat + 2) with
      | .error f => .error f
      | .ok opb => .ok { ir, opa, opb }

/-- `p + n + 1` in 9 bits (R108). -/
def sequentialPc (ir : Byte) (p : PcWord) : PcWord := p + (opcodeArity ir).zeroExtend 9 + 1

/-- Step 6 after a handler that answered a state: a halted or faulted machine keeps `pc` (R109, R114); otherwise the loop advances `pc`
when `sets_pc` is 0 and leaves it alone when it is 1. Only the two decoded fields of `IR` decide, never the instruction (R72, R108). -/
def State.afterHandler (ir : Byte) (p : PcWord) (t : State) : State :=
  match t.run with
  | .running => if opcodeSetsPc ir then t else t.writePc (sequentialPc ir p)
  | .halted => t
  | .faulted => t

/-- Step 6 over a handler's outcome. -/
def completeStep (ir : Byte) (p : PcWord) : Host.Outcome State Fault Refusal → Host.Outcome State Fault Refusal
  | .next t => .next (t.afterHandler ir p)
  | .fault r => .fault r
  | .refused r => .refused r

end Sys2Proof.Machine
end

