-- ==== Sys2Proof/Machine/Flags.lean ====
section
/-! DEFINITION. The flags: the one-hot comparison result and the write of `FL` (10_state.md R31, R32, 41_alu.md R133, R134). -/

namespace Sys2Proof.Machine

/-- The three flag bits L G E of a comparison of unsigned bytes, exactly one set (R133, R134; positions D3, log 17). -/
def compareFlags (va vb : Byte) : BitVec 3 :=
  if va = vb then 0b001
  else if va.toNat < vb.toNat then 0b100
  else 0b010

/-- `FL <- flags`: the whole byte is replaced (D4, log 17), bits 7:3 become 0 (R31, R32). -/
def State.writeFlags (s : State) (f : BitVec 3) : State := { s with fl := f.zeroExtend 8 }

end Sys2Proof.Machine
end

