-- ==== Sys2Proof/Machine/Operands.lean ====
section
/-! DEFINITION. The operand forms: register index, immediate (used as is, 30_encoding.md R76), and the zero-extended jump target. -/

namespace Sys2Proof.Machine

/-- `reg_index(b)` (00_scope.md R10, 30_encoding.md R75): the whole byte is the index; 8 to 255 names nothing and nothing is masked. -/
def regIndex (b : Byte) : Option RegIndex := if h : b.toNat < 8 then some ⟨b.toNat, h⟩ else none

/-- Run the rest of an instruction on the register a byte names, or take `RegisterIndexOutOfBounds(b)` before any effect (R75, R107,
60_exceptions.md R203). Every meaning begins with its register operands, `a` first, so no handler runs on a bad index (log 6). -/
def withReg (b : Byte) (s : State) (k : RegIndex → Host.Outcome State Fault Refusal) : Host.Outcome State Fault Refusal :=
  match regIndex b with
  | some r => k r
  | none => takeFault (.registerIndexOutOfBounds b) s

/-- `zext_9`: an 8-bit target widened to the 9-bit `pc` (00_scope.md R10, 43_control_flow.md R168). -/
def zext9 (v : Byte) : PcWord := v.zeroExtend 9

end Sys2Proof.Machine
end

