-- ==== Sys2Proof/Machine/Alu.lean ====
section
/-! DEFINITION. The arithmetic/logic group: ADD, SUB, MUL, CMP (41_alu.md). The step's frame advances `pc` by 3 (40_dispatch_loop.md R108). -/

namespace Sys2Proof.Machine

/-- Both registers are read before `x[a]` is written (41_alu.md R134). -/
def aluRegReg (op : Byte → Byte → Byte) (a b : Byte) (s : State) : Host.Outcome State Fault Refusal :=
  withReg a s fun ra => withReg b s fun rb =>
    .next (s.writeReg ra (op (s.readReg ra) (s.readReg rb)))

/-- ADD a,b (R130): `x[a] <- (x[a] + x[b]) mod 256`; `FL` unchanged, the carry is lost. -/
def execAdd (a b : Byte) (s : State) : Host.Outcome State Fault Refusal := aluRegReg (fun u v => u + v) a b s

/-- SUB a,b (R131): `x[a] <- (x[a] - x[b]) mod 256`; `FL` unchanged, the borrow is lost. -/
def execSub (a b : Byte) (s : State) : Host.Outcome State Fault Refusal := aluRegReg (fun u v => u - v) a b s

/-- MUL a,b (R132): the low 8 bits of the product; `FL` unchanged. -/
def execMul (a b : Byte) (s : State) : Host.Outcome State Fault Refusal := aluRegReg (fun u v => u * v) a b s

/-- CMP a,b (R133): writes the whole of `FL`, no register. -/
def execCmp (a b : Byte) (s : State) : Host.Outcome State Fault Refusal :=
  withReg a s fun ra => withReg b s fun rb =>
    .next (s.writeFlags (compareFlags (s.readReg ra) (s.readReg rb)))

end Sys2Proof.Machine
end

