-- ==== Sys2Proof/Machine/ControlFlow.lean ====
section
/-! DEFINITION. The control-flow group: CALL, RET, JMP (43_control_flow.md). All three write `pc` themselves (`sets_pc = 1`). -/

namespace Sys2Proof.Machine

/-- CALL's return address `(p + 2) mod 256`, the byte after its operand (R165, 10_state.md R22). -/
def returnAddress (p : PcWord) : Byte := (p + 2).truncate 8

/-- CALL a (R165): R6 gets the return address, R6 is pushed, and `x[a]` is read LAST (D12): CALL r6 goes to the return address and CALL r7
to the decremented stack pointer. -/
def execCall (a : Byte) (s : State) : Host.Outcome State Fault Refusal :=
  withReg a s fun ra =>
    let s2 := (s.writeReg Config.linkIndex (returnAddress s.pc)).pushReg Config.linkIndex
    .next (s2.writePc (zext9 (s2.readReg ra)))

/-- RET (R166): `StackUnderflow(SP)` on an empty stack (D10), before any effect; otherwise the popped byte goes to `pc` through an internal
temporary (D11), and no register but `SP` changes. -/
def execRet (s : State) : Host.Outcome State Fault Refusal :=
  if s.stackEmpty then takeFault (.stackUnderflow s.sp) s
  else .next (s.incSp.writePc (zext9 (s.loadByte s.sp)))

/-- JMP a (R167). -/
def execJmp (a : Byte) (s : State) : Host.Outcome State Fault Refusal :=
  withReg a s fun ra => .next (s.writePc (zext9 (s.readReg ra)))

end Sys2Proof.Machine
end

