-- ==== Sys2Proof/Machine/Other.lean ====
section
/-! DEFINITION. The other instructions: LDI, PRN, HLT (44_other.md). -/

namespace Sys2Proof.Machine

/-- LDI a,imm (R185): the second operand byte is the value itself (30_encoding.md R76). -/
def execLdi (a imm : Byte) (s : State) : Host.Outcome State Fault Refusal :=
  withReg a s fun ra => .next (s.writeReg ra imm)

/-- PRN a (R186): one byte appended to `OUT`; its rendering as text is the host's. -/
def execPrn (a : Byte) (s : State) : Host.Outcome State Fault Refusal :=
  withReg a s fun ra => .next (s.emitOut (s.readReg ra))

/-- HLT (R187): `run <- Halted`; the frame does not advance `pc` (40_dispatch_loop.md R109). -/
def execHlt (s : State) : Host.Outcome State Fault Refusal := .next s.halt

end Sys2Proof.Machine
end

