-- ==== Sys2Proof/Machine/Stack.lean ====
section
/-! DEFINITION. The stack group: PUSH, POP (42_stack.md). The step's frame advances `pc` by 2 (40_dispatch_loop.md R108). -/

namespace Sys2Proof.Machine

/-- PUSH a (R151). No stack-overflow check; `SP = 0` wraps to 255 (R155). -/
def execPush (a : Byte) (s : State) : Host.Outcome State Fault Refusal :=
  withReg a s fun ra => .next (s.pushReg ra)

/-- POP a (R152). Not empty: `x[a]` gets the byte at `SP`, and only then `x[7]` is incremented (so POP r7 ends one above the byte, D29).
Empty: a warning and nothing else. The index is checked in both cases (D9). -/
def execPop (a : Byte) (s : State) : Host.Outcome State Fault Refusal :=
  withReg a s fun ra =>
    if s.stackEmpty then .next s.emitStackEmpty
    else .next (s.writeReg ra (s.loadByte s.sp)).incSp

end Sys2Proof.Machine
end

