-- ==== Sys2Proof/Machine/LoadPort.lean ====
section
/-! DEFINITION. The host's side of the machine: reset with an image through the load port, and what the host reports at the end. -/

namespace Sys2Proof.Machine

/-- `M[addr + i] <- image[i]` for every `i` (20_memory.md R67). -/
def Memory.loadImage : Memory → Nat → List Byte → Memory
  | m, _, [] => m
  | m, addr, v :: vs => Memory.loadImage (m.write addr v) (addr + 1) vs

/-- `reset(IMAGE, LOAD_BASE)` (70_reset_and_hazards.md R241): the reset state with the image loaded at the base; `none` when the image does not
fit, and then there is no machine (R67, D19). The load does not move `pc` (R242). -/
def State.resetWith (image : List Byte) (loadBase : Byte := 0) : Option State :=
  if loadBase.toNat + image.length ≤ Config.memSize then
    some { State.reset with mem := State.reset.mem.loadImage loadBase.toNat image }
  else none

/-- What the host reports of a run that has ended (60_exceptions.md R219); the numbers are the host's (D22). -/
inductive ExitStatus where
  | success
  | failure
  deriving DecidableEq, Repr

/-- `Halted` is success, `Faulted` is failure, and a running machine has no status (R219). -/
def State.exitStatus (s : State) : Option ExitStatus :=
  match s.run with
  | .running => none
  | .halted => some .success
  | .faulted => some .failure

end Sys2Proof.Machine
end

