-- ==== Sys2Proof/Machine/Step.lean ====
section
/-! DEFINITION. One step of the machine (40_dispatch_loop.md R113), and an instruction word placed where the next step fetches. -/

namespace Sys2Proof.Machine

/-- One step: fetch, decode, execute, complete. A terminal state has no step (R100). Each fatal fault is the next state of R208. -/
def step (s : State) : Host.Outcome State Fault Refusal :=
  match s.run with
  | .halted => .fault .noStepWhenHalted
  | .faulted => .fault .noStepWhenFaulted
  | .running =>
    match s.fetch with
    | .error f => takeFault f s
    | .ok b =>
      match decode b with
      | .error e => takeFault (faultOfDecodeError e) s
      | .ok i => completeStep b.ir s.pc (exec i s)

/-- `s` with the bytes of an instruction word at `pc`, `pc + 1`, `pc + 2`, where the next step fetches (R102, R103); nothing else changes. It
stands for the host's load (20_memory.md R67): a program is loaded during reset and the first step executes at address 0 (log 8). Where
`pc` is above 253 no instruction can be fetched at all (R103), and nothing is placed. -/
def State.withFetchWord (s : State) (nbits w : Nat) : State :=
  if s.pc.toNat + 2 < Config.memSize then
    { s with mem := s.mem.loadImage s.pc.toNat (wordBytes nbits w) }
  else s

end Sys2Proof.Machine
end

