-- ==== Sys2Proof/Safety.lean ====
section
/-! DEFINITION. The terms claims are made in: the invariant of the machine, runs and how they end, and what an instruction leaves unchanged. -/

namespace Sys2Proof.Machine

/-! ### The invariant -/

/-- What the latches may hold (10_state.md R35, 60_exceptions.md R206): a code 1 to 4 with information in that code's range. -/
def FaultLatches.legal (l : FaultLatches) : Prop :=
  (l.faultCause = 1 ∧ l.faultInfo.toNat < 256) ∨
  (l.faultCause = 2 ∧ l.faultInfo.toNat = 256) ∨
  (l.faultCause = 3 ∧ 8 ≤ l.faultInfo.toNat ∧ l.faultInfo.toNat < 256) ∨
  (l.faultCause = 4 ∧ 0xF4 ≤ l.faultInfo.toNat ∧ l.faultInfo.toNat < 256)

/-- What holds in every state the machine can be in (10_state.md R30, R32, R35, R39, R44; R103 for `Halted`). -/
structure State.Inv (s : State) : Prop where
  /-- memory has its canonical form, so every listed cell is one of the 256 -/
  mem_wf : s.mem.wf
  /-- `FL` is 0x00, 0x01, 0x02 or 0x04, so bits 7:3 are 0 and at most one flag is set -/
  fl_legal : s.fl = 0x00 ∨ s.fl = 0x01 ∨ s.fl = 0x02 ∨ s.fl = 0x04
  /-- `pc` is 0 to 256 -/
  pc_range : s.pc.toNat ≤ 256
  /-- a halted machine stands on an address an instruction can be fetched at -/
  halted_pc : s.run = .halted → s.pc.toNat ≤ 253
  /-- the latches hold a value exactly in `Faulted` -/
  latched_iff : s.fault.isSome = true ↔ s.run = .faulted
  /-- and then a legal one, with the address of the faulting instruction, where `pc` still is -/
  latches_legal : ∀ l, s.fault = some l → l.legal ∧ l.faultPc = s.pc

/-! ### Runs -/

/-- `k` steps from `s` are taken, one after the other, and end in `t`. -/
def RunsTo (k : Nat) (s t : State) : Prop := Sys2Proof.core.run k s = .next t

/-- A safe run: `k` steps are taken and no fatal fault is among them. -/
def SafeRun (k : Nat) (s : State) : Prop := ∃ t, RunsTo k s t ∧ t.run ≠ .faulted

/-- A run that ends as the program asked (70_reset_and_hazards.md R251). -/
def EndsCleanly (k : Nat) (s : State) : Prop := ∃ t, RunsTo k s t ∧ t.run = .halted

/-! ### What a step finds and what it leaves alone -/

/-- The operand byte `b` names the register `r` (30_encoding.md R75). -/
abbrev Names (b : Byte) (r : RegIndex) : Prop := b.toNat = r.val

/-- The machine runs and the three fetch reads give these bytes (40_dispatch_loop.md R102, R103). -/
abbrev Fetches (s : State) (ir opa opb : Byte) : Prop :=
  s.run = .running ∧ s.pc.toNat ≤ 253 ∧ s.mem.read s.pc.toNat = ir ∧
    s.mem.read (s.pc.toNat + 1) = opa ∧ s.mem.read (s.pc.toNat + 2) = opb

/-- No register outside `ds` differs. -/
def KeepsRegs (ds : List RegIndex) (s t : State) : Prop := ∀ r, r ∉ ds → t.readReg r = s.readReg r

/-- No address outside `addrs` reads differently. -/
def KeepsMemory (addrs : List Nat) (s t : State) : Prop := ∀ a, a ∉ addrs → t.mem.read a = s.mem.read a

/-- The run state and the fault latches do not differ. -/
def KeepsStatus (s t : State) : Prop := t.run = s.run ∧ t.fault = s.fault

/-- Neither stream differs. -/
def KeepsStreams (s t : State) : Prop := t.out = s.out ∧ t.diag = s.diag

/-- The state a fatal fault leaves: `run` and the three latches, nothing else (60_exceptions.md R208). -/
def FaultedWith (s : State) (code : BitVec 3) (info : BitVec 9) : State :=
  { s with run := .faulted, fault := some { faultCause := code, faultPc := s.pc, faultInfo := info } }

end Sys2Proof.Machine
end

