-- ==== Sys2Proof/Certificates/Slice0/Obligations.lean ====
section
/-! DEFINITION. The statements for the provers. `R<n>` is a rule of spec/, `D<n>` a decision of spec/92_eei_decisions.md that the spec marks as its
own (not its source's); a statement that rests on one says so. -/

open Sys2Proof Sys2Proof.Machine

/-! ### Decoding and encoding -/

/-- Decode gives back every instruction from its encoding, with every operand byte, whatever bytes follow it in memory (R70, R74, R77; byte
values D1, log 1). -/
def Obligations.DecodeOfEncodeIsTheInstruction : Prop :=
  ∀ (i : Instr) (rest : List Byte), decode (fetchedOfBytes (encode i ++ rest)) = .ok i

/-- And encode gives back the bytes: what the decoder accepts is the opcode byte and as many of the two candidate operands as the opcode's
arity says, so no bit of the instruction is dropped and none beyond it is used (R84, R107; byte values D1, log 1). -/
def Obligations.EncodeOfDecodeIsTheFetchedBytes : Prop :=
  ∀ (f : Fetched) (i : Instr), decode f = .ok i →
    encode i = [f.ir, f.opa, f.opb].take ((opcodeArity f.ir).toNat + 1)

/-- The whole opcode map: which instruction each of the twelve opcode bytes is, on any two bytes fetched after it, the first and then the second
being its operands and the unused ones ignored; the decoder accepts exactly these twelve and rejects the other 244 by name (R77, R78, R80 to R82;
byte values D1, unused bytes D23, logs 1 and 22). -/
def Obligations.DecoderAcceptsExactlyTwelveOpcodes : Prop :=
  (∀ a b : Byte,
    decode { ir := 0xA0, opa := a, opb := b } = .ok (.add a b) ∧ decode { ir := 0xA1, opa := a, opb := b } = .ok (.sub a b) ∧
    decode { ir := 0xA2, opa := a, opb := b } = .ok (.mul a b) ∧ decode { ir := 0xA7, opa := a, opb := b } = .ok (.cmp a b) ∧
    decode { ir := 0x45, opa := a, opb := b } = .ok (.push a) ∧ decode { ir := 0x46, opa := a, opb := b } = .ok (.pop a) ∧
    decode { ir := 0x50, opa := a, opb := b } = .ok (.call a) ∧ decode { ir := 0x11, opa := a, opb := b } = .ok .ret ∧
    decode { ir := 0x54, opa := a, opb := b } = .ok (.jmp a) ∧ decode { ir := 0x82, opa := a, opb := b } = .ok (.ldi a b) ∧
    decode { ir := 0x47, opa := a, opb := b } = .ok (.prn a) ∧ decode { ir := 0x01, opa := a, opb := b } = .ok .hlt) ∧
  ∀ f : Fetched,
    ((∃ i, decode f = .ok i) ↔
      f.ir ∈ ([0xA0, 0xA1, 0xA2, 0xA7, 0x45, 0x46, 0x50, 0x11, 0x54, 0x82, 0x47, 0x01] : List Byte)) ∧
    ((¬ ∃ i, decode f = .ok i) → decode f = .error (.unknownOpcode f.ir))

/-- The operand count is the top two bits of the opcode byte, a number 0 to 3 (R104), and `sets_pc` is its bit 4 (R105; which bit is the spec's
choice between two passages, C1 and D2, log 22). -/
def Obligations.OpcodeFieldsAreTopBitsAndBitFour : Prop :=
  ∀ ir : Byte, (opcodeArity ir).toNat = ir.toNat / 64 ∧ (opcodeArity ir).toNat ≤ 3 ∧
    (opcodeSetsPc ir = true ↔ ir.toNat / 16 % 2 = 1)

/-- R70: an instruction is one opcode byte, first in memory, followed by `n` operand bytes, `n` the arity in that opcode byte, 0, 1 or 2; so it is
1, 2 or 3 bytes long. -/
def Obligations.EncodingIsOpcodeThenArityManyOperands : Prop :=
  ∀ i : Instr, ∃ ir, encode i = ir :: i.operands ∧ i.operands.length = (opcodeArity ir).toNat ∧
    i.operands.length ≤ 2 ∧ (encode i).length ∈ [1, 2, 3]

/-- One word of each instruction written out from the spec's encodings (R74, R77, R85; byte values D1, log 1), and three bytes that are no opcode
(R80 to R82). -/
def Obligations.SampleWordsDecode : Prop :=
  decodeTableWord 24 0x0100A0 = some (.add 0 1) ∧ decodeTableWord 24 0x0001A1 = some (.sub 1 0) ∧
  decodeTableWord 24 0x0100A2 = some (.mul 0 1) ∧ decodeTableWord 24 0x0100A7 = some (.cmp 0 1) ∧
  decodeTableWord 16 0x0245 = some (.push 2) ∧ decodeTableWord 16 0x0246 = some (.pop 2) ∧
  decodeTableWord 16 0x0150 = some (.call 1) ∧ decodeTableWord 8 0x11 = some .ret ∧ decodeTableWord 16 0x0254 = some (.jmp 2) ∧
  decodeTableWord 24 0xC80082 = some (.ldi 0 200) ∧ decodeTableWord 16 0x0147 = some (.prn 1) ∧ decodeTableWord 8 0x01 = some .hlt ∧
  decodeTableWord 8 0x00 = none ∧ decodeTableWord 16 0x0055 = none ∧ decodeTableWord 24 0x0000C0 = none

/-! ### The step -/

/-- When the three bytes at `pc` decode to an instruction, the step is exec of it followed by the end of the step, which sees only the opcode
byte, the old `pc` and exec's outcome (R101, R110, R113). It holds for every form of the instruction, also those with a bad register index. -/
def Obligations.StepRunsTheDecodedInstruction : Prop :=
  ∀ (s : State) (ir opa opb : Byte) (i : Instr), Fetches s ir opa opb →
    decode { ir := ir, opa := opa, opb := opb } = .ok i → step s = completeStep ir s.pc (exec i s)

/-- After a handler that answers without fault and without halting (R108; bit 4 D2, 9 bits D6, log 9), `pc` becomes `p + n + 1`, without wrap, when
`sets_pc` is 0, and is what the handler wrote when it is 1; nothing else changes. Only CALL, RET and JMP have the bit, and the other nine
handlers do not write `pc`. -/
def Obligations.LoopAdvancesPcUnlessHandlerSetsIt : Prop :=
  ∀ (s : State) (ir opa opb : Byte) (i : Instr) (t : State), Fetches s ir opa opb →
    decode { ir := ir, opa := opa, opb := opb } = .ok i → exec i s = .next t →
      (t.run = .running → opcodeSetsPc ir = false →
        t.pc = s.pc ∧ ∃ q : PcWord, q.toNat = s.pc.toNat + (opcodeArity ir).toNat + 1 ∧ step s = .next { t with pc := q }) ∧
      (t.run = .running → opcodeSetsPc ir = true → step s = .next t) ∧
      (opcodeSetsPc ir = true ↔ (∃ a, i = .call a) ∨ i = .ret ∨ ∃ a, i = .jmp a)

/-- A handler that halts or takes a fatal fault ends the step as it is: the loop does not advance `pc` (R109, R114; D13, D15, logs 15 and 16). -/
def Obligations.HaltOrFaultHoldsPc : Prop :=
  ∀ (s : State) (ir opa opb : Byte) (i : Instr) (t : State), Fetches s ir opa opb →
    decode { ir := ir, opa := opa, opb := opb } = .ok i → exec i s = .next t → t.run ≠ .running →
      step s = .next t ∧ t.pc = s.pc

/-- How each opcode leaves `pc` when the run goes on (R29, R114; byte values D1, order of CALL's effects D12, logs 1 and 14). CALL's target is
`x[a]` as it stands after the call's writes to R6 and R7. -/
def Obligations.PcAfterEachOpcode : Prop :=
  ∀ (s : State) (ir opa opb : Byte) (t : State), Fetches s ir opa opb → step s = .next t → t.run = .running →
    (ir ∈ ([0xA0, 0xA1, 0xA2, 0xA7, 0x82] : List Byte) → t.pc.toNat = s.pc.toNat + 3) ∧
    (ir ∈ ([0x45, 0x46, 0x47] : List Byte) → t.pc.toNat = s.pc.toNat + 2) ∧
    (ir = 0x50 → ∀ r, Names opa r → t.pc.toNat = (t.readReg r).toNat) ∧
    (ir = 0x54 → ∀ r, Names opa r → t.pc.toNat = (s.readReg r).toNat) ∧
    (ir = 0x11 → t.pc.toNat = (s.mem.read s.sp.toNat).toNat)

/-- A running machine always has a next state: no step of it is a stop or a refusal, whatever memory holds (R11; the fault as a next state is
D14, log 4). -/
def Obligations.RunningStepAlwaysAnswersAState : Prop :=
  ∀ s : State, s.run = .running → ∃ t, step s = .next t

/-- A halted or faulted machine has no step (R11, R100; `Faulted` is D14, the stop's name the model's, log 5). -/
def Obligations.TerminalStatesHaveNoStep : Prop :=
  ∀ s : State, (s.run = .halted → step s = .fault .noStepWhenHalted) ∧ (s.run = .faulted → step s = .fault .noStepWhenFaulted)

/-! ### Fatal faults -/

/-- Every fetch at 254, 255 or 256 faults with address 256, whatever memory holds there and whatever the instruction would have consumed (R103,
R202, R207; D6, D7, D8, D14, logs 9, 10 and 16). -/
def Obligations.FetchAbove253FaultsOutOfBounds : Prop :=
  ∀ s : State, s.run = .running → 254 ≤ s.pc.toNat → s.pc.toNat ≤ 256 → step s = .next (FaultedWith s 2 256)

/-- An opcode byte outside the twelve faults with that byte, whatever the operand bytes are (R80, R106, R201, R207; D1, D14, D23, logs 1, 16, 22). -/
def Obligations.UnknownOpcodeFaultsWithItsByte : Prop :=
  ∀ (s : State) (ir opa opb : Byte), Fetches s ir opa opb →
    ir ∉ ([0xA0, 0xA1, 0xA2, 0xA7, 0x45, 0x46, 0x50, 0x11, 0x54, 0x82, 0x47, 0x01] : List Byte) →
    step s = .next (FaultedWith s 1 (BitVec.ofNat 9 ir.toNat))

/-- The ten instructions with a register operand take `RegisterIndexOutOfBounds` on a byte above 7, with that byte, before any effect (R75, R107,
R203; D9, D14, logs 6, 11, 16). In POP this comes before the empty-stack test. -/
def Obligations.FirstOperandAbove7Faults : Prop :=
  ∀ (s : State) (a b : Byte), 8 ≤ a.toNat →
    ∀ i ∈ [Instr.add a b, .sub a b, .mul a b, .cmp a b, .push a, .pop a, .call a, .jmp a, .ldi a b, .prn a],
      exec i s = .next (FaultedWith s 3 (BitVec.ofNat 9 a.toNat))

/-- The second register operand of the ALU group is checked after the first (R75, R207; D9, D16, logs 11 and 16). -/
def Obligations.SecondOperandAbove7Faults : Prop :=
  ∀ (s : State) (a b : Byte), a.toNat < 8 → 8 ≤ b.toNat →
    ∀ i ∈ [Instr.add a b, .sub a b, .mul a b, .cmp a b],
      exec i s = .next (FaultedWith s 3 (BitVec.ofNat 9 b.toNat))

/-- RET with `SP` at 0xF4 or above takes `StackUnderflow` with `SP`, before any effect (R166, R204; D10, D14, logs 12 and 16). -/
def Obligations.RetOnEmptyStackFaults : Prop :=
  ∀ s : State, 0xF4 ≤ s.sp.toNat → exec .ret s = .next (FaultedWith s 4 (BitVec.ofNat 9 s.sp.toNat))

/-- A step that faults changes nothing but `run` and the latches, and these hold the address of the instruction and a legal cause (R35, R112,
R206, R208, R209; D14, D15, log 16). The premise on `pc` holds in every state the invariant allows. -/
def Obligations.FaultingStepIsPrecise : Prop :=
  ∀ s t : State, s.pc.toNat ≤ 256 → step s = .next t → t.run = .faulted →
    ∃ code info, t = FaultedWith s code info ∧
      FaultLatches.legal { faultCause := code, faultPc := s.pc, faultInfo := info }

/-- A step halts the machine exactly when it executes the byte 0x01 at an address 0 to 253, and then nothing but `run` changes (R187, R251; byte
value D1, pc D13, logs 1 and 15). -/
def Obligations.StepHaltsExactlyOnHlt : Prop :=
  ∀ s : State, s.run = .running →
    ((∃ t, step s = .next t ∧ t.run = .halted) ↔ s.pc.toNat ≤ 253 ∧ s.mem.read s.pc.toNat = 0x01) ∧
    (∀ t, step s = .next t → t.run = .halted → t = { s with run := .halted })

/-! ### State: registers, memory, reset, load -/

/-- R21: eight registers, indexed 0 to 7, each read back as written, none hard-wired, none an alias of another; writing one touches nothing else. -/
def Obligations.RegisterFileHoldsEightIndependentBytes : Prop :=
  ∀ (s : State) (r : RegIndex) (v : Byte),
    (s.writeReg r v).readReg r = v ∧ (∀ r', r' ≠ r → (s.writeReg r v).readReg r' = s.readReg r') ∧
    s.writeReg r v = { s with regs := (s.writeReg r v).regs }

/-- R51: a read gives the byte most recently written to the cell by a store or by the load, or the reset value if there is none; a write touches
the single cell and nothing else. -/
def Obligations.MemoryGivesTheLatestByteWritten : Prop :=
  (∀ (s : State) (a v : Byte), (s.storeByte a v).loadByte a = v ∧
      (∀ a', a' ≠ a → (s.storeByte a v).loadByte a' = s.loadByte a') ∧
      s.storeByte a v = { s with mem := (s.storeByte a v).mem }) ∧
  (∀ (image : List Byte) (base : Byte) (s : State), State.resetWith image base = some s → ∀ a : Byte,
      s.loadByte a = if base.toNat ≤ a.toNat ∧ a.toNat < base.toNat + image.length
        then image.getD (a.toNat - base.toNat) 0 else State.reset.loadByte a)

/-- Two memories in canonical form that read alike everywhere are the same list, so comparing states compares what the machine holds (the
model's own form of R39). -/
def Obligations.CanonicalMemoriesThatReadAlikeAreEqual : Prop :=
  ∀ m m' : Memory, m.wf → m'.wf → (∀ a, m.read a = m'.read a) → m = m'

/-- What reset leaves (R43, R241): `pc`, R7 and `run` are the source's values; the zeros are the spec's decision D5, the empty latches and streams
D14 and D17 (logs 2, 3, 16, 18). -/
def Obligations.ResetValues : Prop :=
  State.reset.pc = 0 ∧ State.reset.sp = 0xF4 ∧ State.reset.run = .running ∧ (∀ r, r ≠ 7 → State.reset.readReg r = 0x00) ∧
  State.reset.fl = 0x00 ∧ (∀ a, State.reset.mem.read a = 0x00) ∧ State.reset.fault = none ∧ State.reset.out = [] ∧
  State.reset.diag = []

/-- The load port (R67, R241; refusal D19, log 19): an image that fits is accepted, one that does not is refused, and the load changes only
memory, so `pc` stays 0 whatever the load address is (R242). -/
def Obligations.LoadPortAcceptsExactlyImagesThatFit : Prop :=
  ∀ (image : List Byte) (base : Byte),
    (base.toNat + image.length ≤ 256 → ∃ s, State.resetWith image base = some s ∧ s = { State.reset with mem := s.mem }) ∧
    (256 < base.toNat + image.length → State.resetWith image base = none)

/-- The first instruction executed is the one at address 0 (R242): with the default load address the image's first byte is the first opcode; with
any other and nothing loaded at 0 the first step faults on the byte 0x00 (reset zeros D5, D14; logs 3 and 16). -/
def Obligations.FirstFetchIsAtAddressZero : Prop :=
  (∀ (ir : Byte) (image : List Byte) (s : State), State.resetWith (ir :: image) = some s →
    Fetches s ir (image.getD 0 0) (image.getD 1 0)) ∧
  (∀ (image : List Byte) (base : Byte) (s : State), State.resetWith image base = some s → 0 < base.toNat →
    step s = .next (FaultedWith s 1 0))

/-! ### The arithmetic/logic group -/

/-- ADD (R130): `x[a] <- (x[a] + x[b]) mod 256`, also when `a = b`, and nothing else; the loop advances `pc`. -/
def Obligations.AddWritesSumModulo256 : Prop :=
  ∀ (s : State) (a b : Byte) (ra rb : RegIndex), Names a ra → Names b rb →
    ∃ t, exec (.add a b) s = .next t ∧
      (t.readReg ra).toNat = ((s.readReg ra).toNat + (s.readReg rb).toNat) % 256 ∧
      KeepsRegs [ra] s t ∧ KeepsMemory [] s t ∧ t.fl = s.fl ∧ t.pc = s.pc ∧ KeepsStatus s t ∧ KeepsStreams s t

/-- SUB (R131): `x[a] <- (x[a] - x[b]) mod 256`, the non-negative remainder (R9), and nothing else. -/
def Obligations.SubWritesDifferenceModulo256 : Prop :=
  ∀ (s : State) (a b : Byte) (ra rb : RegIndex), Names a ra → Names b rb →
    ∃ t, exec (.sub a b) s = .next t ∧
      ((t.readReg ra).toNat : Int) = (((s.readReg ra).toNat : Int) - ((s.readReg rb).toNat : Int)) % 256 ∧
      KeepsRegs [ra] s t ∧ KeepsMemory [] s t ∧ t.fl = s.fl ∧ t.pc = s.pc ∧ KeepsStatus s t ∧ KeepsStreams s t

/-- MUL (R132): the low 8 bits of the unsigned product, and nothing else. -/
def Obligations.MulWritesProductModulo256 : Prop :=
  ∀ (s : State) (a b : Byte) (ra rb : RegIndex), Names a ra → Names b rb →
    ∃ t, exec (.mul a b) s = .next t ∧
      (t.readReg ra).toNat = ((s.readReg ra).toNat * (s.readReg rb).toNat) % 256 ∧
      KeepsRegs [ra] s t ∧ KeepsMemory [] s t ∧ t.fl = s.fl ∧ t.pc = s.pc ∧ KeepsStatus s t ∧ KeepsStreams s t

/-- CMP (R133): the whole flags byte becomes 0x01, 0x04 or 0x02 as the unsigned values are equal, less or greater, whatever it was; nothing else
changes (bit positions D3, clearing D4, log 17). -/
def Obligations.CmpSetsExactlyOneFlag : Prop :=
  ∀ (s : State) (a b : Byte) (ra rb : RegIndex), Names a ra → Names b rb →
    ∃ t, exec (.cmp a b) s = .next t ∧
      t.fl = (if (s.readReg ra).toNat = (s.readReg rb).toNat then 0x01
        else if (s.readReg ra).toNat < (s.readReg rb).toNat then 0x04 else 0x02) ∧
      KeepsRegs [] s t ∧ KeepsMemory [] s t ∧ t.pc = s.pc ∧ KeepsStatus s t ∧ KeepsStreams s t

/-- R136: arithmetic is exact modulo 256 and silent. For all bytes `x`, `y`: after `LDI r0,x; LDI r1,y; op r0,r1`, R0 holds the sum, difference or
product modulo 256, which is also the two's-complement result on the same bit patterns; there is no flag, no fault and no saturation; and CMP
orders the bytes as unsigned numbers: one flags byte for each of the three orders, whichever bytes these are, and whatever `FL` was before (that CMP
writes the whole byte is the spec's own decision, D4, log 17). -/
def Obligations.ArithmeticLawsModulo256 : Prop :=
  ∃ less greater equal : Byte, less ≠ greater ∧ greater ≠ equal ∧ equal ≠ less ∧
  ∀ (s : State) (x y : Byte), ∃ s1 s2 tAdd tSub tMul tCmp,
    exec (.ldi 0 x) s = .next s1 ∧ exec (.ldi 1 y) s1 = .next s2 ∧
    exec (.add 0 1) s2 = .next tAdd ∧ exec (.sub 0 1) s2 = .next tSub ∧ exec (.mul 0 1) s2 = .next tMul ∧
    exec (.cmp 0 1) s2 = .next tCmp ∧
    (tAdd.readReg 0).toNat = (x.toNat + y.toNat) % 256 ∧
    ((tSub.readReg 0).toNat : Int) = ((x.toNat : Int) - (y.toNat : Int)) % 256 ∧
    (tMul.readReg 0).toNat = (x.toNat * y.toNat) % 256 ∧
    (tAdd.readReg 0).toInt = (x.toInt + y.toInt).bmod 256 ∧
    (tSub.readReg 0).toInt = (x.toInt - y.toInt).bmod 256 ∧
    (tMul.readReg 0).toInt = (x.toInt * y.toInt).bmod 256 ∧
    (∀ t ∈ [tAdd, tSub, tMul], t.fl = s.fl ∧ t.run = s.run ∧ t.fault = s.fault) ∧
    tCmp.fl = (if x.toNat < y.toNat then less else if y.toNat < x.toNat then greater else equal)

/-- R135: any of the four may name R7 or R6 (or any other register) in either place; with `a = 7`, ADD, SUB and MUL move the stack pointer; none
of them touches memory, emits anything, or writes `pc` itself. -/
def Obligations.AluTreatsSpecialRegistersAsAny : Prop :=
  ∀ (s : State) (a b : Byte) (ra rb : RegIndex), Names a ra → Names b rb →
    (∀ i ∈ [Instr.add a b, .sub a b, .mul a b, .cmp a b], ∃ t, exec i s = .next t ∧
      t.mem = s.mem ∧ KeepsStreams s t ∧ KeepsStatus s t ∧ t.pc = s.pc) ∧
    (ra = 7 → ∃ tAdd tSub tMul, exec (.add a b) s = .next tAdd ∧ exec (.sub a b) s = .next tSub ∧ exec (.mul a b) s = .next tMul ∧
      tAdd.sp = s.sp + s.readReg rb ∧ tSub.sp = s.sp - s.readReg rb ∧ tMul.sp = s.sp * s.readReg rb)

/-- `ADD a,b; SUB a,b` restores the whole state when `a` and `b` name different registers (from R130 and R131). -/
def Obligations.SubUndoesAdd : Prop :=
  ∀ (s : State) (a b : Byte) (ra rb : RegIndex), Names a ra → Names b rb → ra ≠ rb →
    ∃ t, exec (.add a b) s = .next t ∧ exec (.sub a b) t = .next s

/-! ### The stack group -/

/-- PUSH (R151): `SP` is decremented modulo 256 and `x[a]`, read after that, is written at the new `SP`; PUSH r7 writes the decremented `SP` (order
D29, log 14). No other register or byte changes, and there is no stack-overflow check (D21, log 20). -/
def Obligations.PushStoresBelowStackPointer : Prop :=
  ∀ (s : State) (a : Byte) (ra : RegIndex), Names a ra →
    ∃ t, exec (.push a) s = .next t ∧
      t.sp.toNat = (s.sp.toNat + 255) % 256 ∧
      t.mem.read (s.sp - 1).toNat = (if ra = 7 then s.sp - 1 else s.readReg ra) ∧
      KeepsRegs [7] s t ∧ KeepsMemory [(s.sp - 1).toNat] s t ∧ t.fl = s.fl ∧ t.pc = s.pc ∧ KeepsStatus s t ∧ KeepsStreams s t

/-- POP with `SP` below 0xF4 (R152): `x[a]` gets the byte at `SP` and then register 7 is incremented, so POP r7 ends one above the byte (order
D29, log 14). Memory, flags and everything else stay. -/
def Obligations.PopLoadsFromStackPointer : Prop :=
  ∀ (s : State) (a : Byte) (ra : RegIndex), Names a ra → s.sp.toNat < 0xF4 →
    ∃ t, exec (.pop a) s = .next t ∧
      (ra ≠ 7 → t.readReg ra = s.mem.read s.sp.toNat ∧ t.sp.toNat = s.sp.toNat + 1) ∧
      (ra = 7 → t.sp.toNat = ((s.mem.read s.sp.toNat).toNat + 1) % 256) ∧
      KeepsRegs [ra, 7] s t ∧ KeepsMemory [] s t ∧ t.fl = s.fl ∧ t.pc = s.pc ∧ KeepsStatus s t ∧ KeepsStreams s t

/-- POP with `SP` at 0xF4 or above (R152, R153, R205): one warning with the POP's address, and no register, byte, flag or latch changes (stream and
record D17, log 18). -/
def Obligations.PopOnEmptyStackOnlyWarns : Prop :=
  ∀ (s : State) (a : Byte) (ra : RegIndex), Names a ra → 0xF4 ≤ s.sp.toNat →
    exec (.pop a) s = .next { s with diag := s.diag ++ [{ kind := .stackEmpty, pc := s.pc }] }

/-- R150: the stack is full and descending. PUSH decrements `SP` and then writes at the new `SP`, so `SP` is the address of the byte last pushed;
POP reads at `SP` and then increments it; the stack is empty exactly when `SP >= 0xF4`, and POP then moves nothing; `SP` is 0xF4 at reset and
the first PUSH after reset writes address 0xF3 only. (Which value PUSH r7 and POP r7 move is the order of D29:
`PushStoresBelowStackPointer`, `PopLoadsFromStackPointer`.) -/
def Obligations.StackIsFullDescending : Prop :=
  (∀ (s : State) (a : Byte) (ra : RegIndex), Names a ra →
    (∃ t, exec (.push a) s = .next t ∧ t.sp = s.sp - 1 ∧ KeepsMemory [t.sp.toNat] s t ∧
      (ra ≠ 7 → t.mem.read t.sp.toNat = s.readReg ra)) ∧
    (s.sp.toNat < 0xF4 → ∃ t, exec (.pop a) s = .next t ∧
      (ra ≠ 7 → t.readReg ra = s.mem.read s.sp.toNat ∧ t.sp = s.sp + 1)) ∧
    (0xF4 ≤ s.sp.toNat → ∃ t, exec (.pop a) s = .next t ∧ KeepsRegs [] s t)) ∧
  State.reset.sp = 0xF4 ∧
  (∀ (a : Byte) (ra : RegIndex), Names a ra → ∃ t, exec (.push a) State.reset = .next t ∧
    (ra ≠ 7 → t.mem.read 0xF3 = State.reset.readReg ra) ∧ KeepsMemory [0xF3] State.reset t)

/-- `PUSH a; LDI a,w; POP a` restores `x[a]`, `SP` and every other register, and changes memory only at `SP - 1`, for `a` other than 7 and `SP`
from 0x01 to 0xF4 (R154); for `SP` 0x00 or above 0xF4 the POP finds the stack empty and only warns. -/
def Obligations.PushThenPopRoundTrips : Prop :=
  ∀ (s : State) (a w : Byte) (ra : RegIndex), Names a ra → ra ≠ 7 →
    ∃ s1 s2 t, exec (.push a) s = .next s1 ∧ exec (.ldi a w) s1 = .next s2 ∧ exec (.pop a) s2 = .next t ∧
      (1 ≤ s.sp.toNat → s.sp.toNat ≤ 0xF4 → KeepsRegs [] s t ∧ KeepsMemory [(s.sp - 1).toNat] s t ∧ t.diag = s.diag) ∧
      (s.sp.toNat = 0 ∨ 0xF4 < s.sp.toNat → t.readReg ra = w ∧ t.sp = s.sp - 1 ∧ t.diag ≠ s.diag)

/-! ### The control-flow group -/

/-- CALL (R165): R6 gets `(pc + 2) mod 256`, `SP` is decremented, R6 is written at the new `SP`, and `pc` gets `x[a]` read last: the return address
for CALL r6, the decremented `SP` for CALL r7 (order D12, log 14). Nothing else changes. -/
def Obligations.CallPushesReturnAddressAndJumps : Prop :=
  ∀ (s : State) (a : Byte) (ra : RegIndex), Names a ra →
    ∃ t, exec (.call a) s = .next t ∧
      (t.readReg 6).toNat = (s.pc.toNat + 2) % 256 ∧
      t.sp.toNat = (s.sp.toNat + 255) % 256 ∧
      (t.mem.read (s.sp - 1).toNat).toNat = (s.pc.toNat + 2) % 256 ∧
      t.pc.toNat = (if ra = 6 then (s.pc.toNat + 2) % 256 else if ra = 7 then (s.sp.toNat + 255) % 256
        else (s.readReg ra).toNat) ∧
      KeepsRegs [6, 7] s t ∧ KeepsMemory [(s.sp - 1).toNat] s t ∧ t.fl = s.fl ∧ KeepsStatus s t ∧ KeepsStreams s t

/-- RET with `SP` below 0xF4 (R166): `pc` gets the byte at `SP`, zero-extended, and `SP` is incremented; no other register changes (the scratch
register is internal, D11, log 13) and no byte of memory. -/
def Obligations.RetJumpsToPoppedByte : Prop :=
  ∀ s : State, s.sp.toNat < 0xF4 →
    ∃ t, exec .ret s = .next t ∧
      t.pc.toNat = (s.mem.read s.sp.toNat).toNat ∧ t.sp.toNat = s.sp.toNat + 1 ∧
      KeepsRegs [7] s t ∧ KeepsMemory [] s t ∧ t.fl = s.fl ∧ KeepsStatus s t ∧ KeepsStreams s t

/-- JMP (R167): `pc` gets `x[a]`, zero-extended, whatever the flags are, and nothing else changes. -/
def Obligations.JmpSetsPcToRegister : Prop :=
  ∀ (s : State) (a : Byte) (ra : RegIndex), Names a ra →
    exec (.jmp a) s = .next { s with pc := BitVec.ofNat 9 (s.readReg ra).toNat }

/-- A RET in any later state `u` where `SP` and the byte at `SP` are as the CALL left them resumes at the address after the CALL and gives `SP` its
old value (R169), for a CALL at an address it can be fetched at and `SP` from 0x01 to 0xF4. -/
def Obligations.RetResumesAfterCall : Prop :=
  ∀ (s : State) (a : Byte) (ra : RegIndex), Names a ra → s.pc.toNat ≤ 253 → 1 ≤ s.sp.toNat → s.sp.toNat ≤ 0xF4 →
    ∃ t, exec (.call a) s = .next t ∧
      ∀ u : State, u.sp = t.sp → u.mem.read u.sp.toNat = t.mem.read t.sp.toNat →
        ∃ w, exec .ret u = .next w ∧ w.pc.toNat = s.pc.toNat + 2 ∧ w.sp = s.sp

/-- A JMP whose register holds its own address runs for ever: no number of steps ends the run (R115, R167; byte value D1, log 1). -/
def Obligations.JumpToItselfNeverEnds : Prop :=
  ∀ (s : State) (a x : Byte) (ra : RegIndex), Fetches s 0x54 a x → Names a ra → (s.readReg ra).toNat = s.pc.toNat →
    ∀ k, RunsTo k s s ∧ SafeRun k s

/-! ### LDI, PRN, HLT -/

/-- LDI (R76, R185): `x[a]` gets the immediate byte as it is, any value 0 to 255, and nothing else changes. -/
def Obligations.LdiWritesImmediate : Prop :=
  ∀ (s : State) (a imm : Byte) (ra : RegIndex), Names a ra →
    ∃ t, exec (.ldi a imm) s = .next t ∧ t.readReg ra = imm ∧
      KeepsRegs [ra] s t ∧ KeepsMemory [] s t ∧ t.fl = s.fl ∧ t.pc = s.pc ∧ KeepsStatus s t ∧ KeepsStreams s t

/-- PRN (R186): `x[a]` is appended to the output stream and nothing else changes (stream D17, log 18). -/
def Obligations.PrnAppendsRegisterToOutput : Prop :=
  ∀ (s : State) (a : Byte) (ra : RegIndex), Names a ra →
    exec (.prn a) s = .next { s with out := s.out ++ [s.readReg ra] }

/-- HLT (R187): `run` becomes `Halted` and nothing else changes, `pc` neither (D13, log 15). -/
def Obligations.HltHaltsAndKeepsEverything : Prop :=
  ∀ s : State, exec .hlt s = .next { s with run := .halted }

/-! ### Whole-machine rules -/

/-- R22: every value written to a register is reduced modulo 256: the results of ADD, SUB and MUL, the stack pointer's decrement (PUSH, CALL) and
increment (POP, RET), and CALL's return address in R6; and no register ever holds a value above 255. (POP r7 writes R7 twice: see
`PopLoadsFromStackPointer`.) -/
def Obligations.EveryRegisterWriteWrapsModulo256 : Prop :=
  ∀ (s : State) (a b : Byte) (ra rb : RegIndex), Names a ra → Names b rb →
    (∃ t, exec (.add a b) s = .next t ∧ (t.readReg ra).toNat = ((s.readReg ra).toNat + (s.readReg rb).toNat) % 256) ∧
    (∃ t, exec (.sub a b) s = .next t ∧ (t.readReg ra).toNat = ((s.readReg ra).toNat + 256 - (s.readReg rb).toNat) % 256) ∧
    (∃ t, exec (.mul a b) s = .next t ∧ (t.readReg ra).toNat = ((s.readReg ra).toNat * (s.readReg rb).toNat) % 256) ∧
    (∃ t, exec (.push a) s = .next t ∧ t.sp.toNat = (s.sp.toNat + 256 - 1) % 256) ∧
    (∃ t, exec (.call a) s = .next t ∧ t.sp.toNat = (s.sp.toNat + 256 - 1) % 256 ∧
      (t.readReg 6).toNat = (s.pc.toNat + 2) % 256) ∧
    (s.sp.toNat < 0xF4 → ra ≠ 7 → ∃ t, exec (.pop a) s = .next t ∧ t.sp.toNat = (s.sp.toNat + 1) % 256) ∧
    (s.sp.toNat < 0xF4 → ∃ t, exec .ret s = .next t ∧ t.sp.toNat = (s.sp.toNat + 1) % 256) ∧
    (∀ r, (s.readReg r).toNat ≤ 255)

/-- Only PUSH and CALL change memory, only CMP the flags, only PRN the output, only POP the diagnostics, and only HLT halts (R26, R32, R61,
R100). -/
def Obligations.OnlyNamedInstructionsTouchEachPart : Prop :=
  ∀ (i : Instr) (s t : State), exec i s = .next t →
    (t.mem ≠ s.mem → (∃ a, i = .push a) ∨ ∃ a, i = .call a) ∧
    (t.fl ≠ s.fl → ∃ a b, i = .cmp a b) ∧
    (t.out ≠ s.out → ∃ a, i = .prn a) ∧
    (t.diag ≠ s.diag → ∃ a, i = .pop a) ∧
    (t.run ≠ s.run → t.run = .halted ∧ i = .hlt ∨ t.run = .faulted)

/-- Which registers an instruction may change: the first operand of ADD, SUB, MUL, LDI and POP, `SP` in PUSH, POP, CALL and RET, R6 in CALL, and none
elsewhere (R26; RET leaves R6 alone, D11, log 13). -/
def Obligations.OnlyNamedRegistersChange : Prop :=
  ∀ (i : Instr) (s t : State) (r : RegIndex), exec i s = .next t → t.readReg r ≠ s.readReg r →
    (∃ a b, Names a r ∧ (i = .add a b ∨ i = .sub a b ∨ i = .mul a b ∨ i = .ldi a b ∨ i = .pop a)) ∨
    (r = 7 ∧ ((∃ a, i = .push a ∨ i = .pop a ∨ i = .call a) ∨ i = .ret)) ∨
    (r = 6 ∧ ∃ a, i = .call a)

/-- R33: nothing reads `FL`. A run from a state whose flags byte is different takes the same steps and differs in nothing but the flags byte, and it
stops where the other stops. -/
def Obligations.FlagsAreUnobservable : Prop :=
  ∀ (k : Nat) (s : State) (f : Byte),
    (∀ t, RunsTo k s t → ∃ g, RunsTo k { s with fl := f } { t with fl := g }) ∧
    (∀ r, Sys2Proof.core.run k s = .fault r → Sys2Proof.core.run k { s with fl := f } = .fault r)

/-- The two streams only grow, and nothing reads them: a run with other contents in them takes the same steps and appends the same bytes and records
(R20, R41; two streams D17, log 18). -/
def Obligations.StreamsOnlyGrowAndAreNeverRead : Prop :=
  ∀ (k : Nat) (s t : State), RunsTo k s t →
    ∃ newOut newDiag, t.out = s.out ++ newOut ∧ t.diag = s.diag ++ newDiag ∧
      ∀ (o : List Byte) (d : List Warning),
        RunsTo k { s with out := o, diag := d } { t with out := o ++ newOut, diag := d ++ newDiag }

/-- A byte pushed to the address executed next is the opcode of the next instruction: a store is seen by the very next fetch (R65, R247; D26, byte
value D1, logs 1 and 21). -/
def Obligations.PushedByteIsFetchedNext : Prop :=
  ∀ (s : State) (a x : Byte) (ra : RegIndex), Fetches s 0x45 a x → Names a ra → ra ≠ 7 →
    (s.sp - 1).toNat = s.pc.toNat + 2 → s.pc.toNat ≤ 251 →
    ∃ t, step s = .next t ∧
      Fetches t (s.readReg ra) (s.mem.read (s.pc.toNat + 3)) (s.mem.read (s.pc.toNat + 4))

/-! ### The invariant and runs -/

/-- The reset state meets the invariant. -/
def Obligations.ResetMeetsInvariant : Prop := State.reset.Inv

/-- Every accepted image gives a state that meets the invariant (R67, R241). -/
def Obligations.LoadedStateMeetsInvariant : Prop :=
  ∀ (image : List Byte) (base : Byte) (s : State), State.resetWith image base = some s → s.Inv

/-- Every step keeps the invariant: canonical memory of 256 cells, `FL` one of four values, `pc` at most 256, latches exactly in `Faulted`, legal and
naming the instruction `pc` stands on (R30, R32, R35, R44; D3, D4, D6, D14 to D16, logs 9, 16, 17). -/
def Obligations.StepKeepsInvariant : Prop :=
  ∀ s t : State, s.Inv → step s = .next t → t.Inv

/-- So every state of every run from every accepted image meets it. -/
def Obligations.EveryRunFromALoadMeetsInvariant : Prop :=
  ∀ (image : List Byte) (base : Byte) (s t : State) (k : Nat),
    State.resetWith image base = some s → RunsTo k s t → t.Inv

/-- A run that ends in `Halted` took at least one step, and its last step executed the byte 0x01 at an address 0 to 253, where `pc` still is (R187,
R251; byte value D1, pc D13, logs 1 and 15). -/
def Obligations.CleanEndExecutedHltLast : Prop :=
  ∀ (k : Nat) (s t : State), s.run = .running → RunsTo k s t → t.run = .halted →
    ∃ (j : Nat) (u : State), k = j + 1 ∧ RunsTo j s u ∧ u.run = .running ∧ u.pc.toNat ≤ 253 ∧
      u.mem.read u.pc.toNat = 0x01 ∧ t = { u with run := .halted }

/-- While a run stays free of faults, `pc` is an address an instruction can be fetched at, with a known opcode there, at the start of every step (R44
"PC is always a valid Memory index while the loop runs"; byte values D1, D8, logs 1 and 10). -/
def Obligations.SafeRunFetchesOnlyKnownOpcodesInBounds : Prop :=
  ∀ (k j : Nat) (s u : State), SafeRun k s → j < k → RunsTo j s u →
    u.run = .running ∧ u.pc.toNat ≤ 253 ∧ u.mem.read u.pc.toNat ∈ opcodes

/-- What the host reports (R219, R252; D22, log 23): success exactly for a halted machine, failure exactly for a faulted one. -/
def Obligations.ExitStatusTellsHaltFromFault : Prop :=
  ∀ s : State, (s.exitStatus = some .success ↔ s.run = .halted) ∧ (s.exitStatus = some .failure ↔ s.run = .faulted)
end

