-- ==== Sys2Proof/Laws/Decode.lean ====
section
/-! SUPPORT. The decoder: what it can answer, said once, so that no later proof unfolds it (30_encoding.md R78, R80). -/

namespace Sys2Proof

/-- Everything the decoder can answer: one of the twelve instructions on its opcode byte, or the rejection of a byte that is none of them. -/
inductive Decoded (f : Fetched) : Except DecodeError Instr → Prop
  | add : f.ir = opAdd → Decoded f (.ok (.add f.opa f.opb))
  | sub : f.ir = opSub → Decoded f (.ok (.sub f.opa f.opb))
  | mul : f.ir = opMul → Decoded f (.ok (.mul f.opa f.opb))
  | cmp : f.ir = opCmp → Decoded f (.ok (.cmp f.opa f.opb))
  | push : f.ir = opPush → Decoded f (.ok (.push f.opa))
  | pop : f.ir = opPop → Decoded f (.ok (.pop f.opa))
  | call : f.ir = opCall → Decoded f (.ok (.call f.opa))
  | ret : f.ir = opRet → Decoded f (.ok .ret)
  | jmp : f.ir = opJmp → Decoded f (.ok (.jmp f.opa))
  | ldi : f.ir = opLdi → Decoded f (.ok (.ldi f.opa f.opb))
  | prn : f.ir = opPrn → Decoded f (.ok (.prn f.opa))
  | hlt : f.ir = opHlt → Decoded f (.ok .hlt)
  | unknown : f.ir ∉ opcodes → Decoded f (.error (.unknownOpcode f.ir))

theorem decode_cases (f : Fetched) : Decoded f (decode f) := by
  unfold decode
  by_cases h0 : f.ir = opAdd
  · rw [if_pos h0]
    exact .add h0
  rw [if_neg h0]
  by_cases h1 : f.ir = opSub
  · rw [if_pos h1]
    exact .sub h1
  rw [if_neg h1]
  by_cases h2 : f.ir = opMul
  · rw [if_pos h2]
    exact .mul h2
  rw [if_neg h2]
  by_cases h3 : f.ir = opCmp
  · rw [if_pos h3]
    exact .cmp h3
  rw [if_neg h3]
  by_cases h4 : f.ir = opPush
  · rw [if_pos h4]
    exact .push h4
  rw [if_neg h4]
  by_cases h5 : f.ir = opPop
  · rw [if_pos h5]
    exact .pop h5
  rw [if_neg h5]
  by_cases h6 : f.ir = opCall
  · rw [if_pos h6]
    exact .call h6
  rw [if_neg h6]
  by_cases h7 : f.ir = opRet
  · rw [if_pos h7]
    exact .ret h7
  rw [if_neg h7]
  by_cases h8 : f.ir = opJmp
  · rw [if_pos h8]
    exact .jmp h8
  rw [if_neg h8]
  by_cases h9 : f.ir = opLdi
  · rw [if_pos h9]
    exact .ldi h9
  rw [if_neg h9]
  by_cases h10 : f.ir = opPrn
  · rw [if_pos h10]
    exact .prn h10
  rw [if_neg h10]
  by_cases h11 : f.ir = opHlt
  · rw [if_pos h11]
    exact .hlt h11
  rw [if_neg h11]
  exact .unknown (by simp [opcodes, h0, h1, h2, h3, h4, h5, h6, h7, h8, h9, h10, h11])

/-- What the decoder accepts begins with the opcode byte of the instruction, which is one of the twelve. -/
theorem opcode_of_decode_ok {f : Fetched} {i : Instr} (h : decode f = .ok i) : f.ir ∈ opcodes ∧ (encode i).head? = some f.ir := by
  have hc := decode_cases f
  rw [h] at hc
  cases hc <;> next hir => exact ⟨hir ▸ by decide, by rw [hir]; rfl⟩

/-- What the decoder rejects is none of the twelve, and it says which byte it was. -/
theorem opcode_of_decode_error {f : Fetched} {e : DecodeError} (h : decode f = .error e) :
    f.ir ∉ opcodes ∧ e = .unknownOpcode f.ir := by
  have hc := decode_cases f
  rw [h] at hc
  cases hc with
  | unknown hir => exact ⟨hir, rfl⟩

end Sys2Proof
end

