-- ==== Sys2Proof/Laws/Memory.lean ====
section
/-! SUPPORT. Memory: reading after a write, and that every memory operation keeps the canonical form. -/

namespace Sys2Proof.Machine.Memory

variable {m : Memory} {addr : Nat} {v : Byte}

@[simp] theorem read_nil (a : Nat) : Memory.read [] a = Config.unlistedByte := rfl

/-- An address no entry lists reads as an unlisted cell. -/
theorem read_of_not_listed {a : Nat} (h : ∀ c ∈ m, c.1 ≠ a) : Memory.read m a = Config.unlistedByte := by
  induction m with
  | nil => rfl
  | cons c m ih =>
    obtain ⟨k, w⟩ := c
    have hk : k ≠ a := h (k, w) (by simp)
    simp only [Memory.read, if_neg hk]
    exact ih fun c hc => h c (by simp [hc])

/-- Dropping the entries of one address leaves the others readable. -/
theorem read_filter_of_ne {a : Nat} (h : a ≠ addr) :
    Memory.read (m.filter (fun c => c.1 != addr)) a = Memory.read m a := by
  induction m with
  | nil => rfl
  | cons c m ih =>
    obtain ⟨k, w⟩ := c
    by_cases hk : k = addr
    · subst hk
      simp [Memory.read, ih, Ne.symm h]
    · have hf : ((k, w) :: m).filter (fun c => c.1 != addr) = (k, w) :: m.filter (fun c => c.1 != addr) := by
        simp [hk]
      rw [hf, Memory.read, Memory.read, ih]

/-- Inserting a cell where no entry lists its address: it reads back, and every other address reads as before. -/
theorem read_insertCell (h : ∀ c ∈ m, c.1 ≠ addr) (a : Nat) :
    Memory.read (Memory.insertCell addr v m) a = if a = addr then v else Memory.read m a := by
  induction m with
  | nil => simp [Memory.insertCell, Memory.read, eq_comm]
  | cons c m ih =>
    obtain ⟨k, w⟩ := c
    have hk : k ≠ addr := h (k, w) (by simp)
    have ih := ih fun c hc => h c (by simp [hc])
    by_cases ha : a = addr
    · subst ha
      by_cases hlt : a < k <;> simp [Memory.insertCell, Memory.read, hlt, hk, ih]
    · by_cases hlt : addr < k <;> simp [Memory.insertCell, Memory.read, hlt, ih, ha, Ne.symm ha]

theorem filter_not_listed (m : Memory) (addr : Nat) : ∀ c ∈ m.filter (fun c => c.1 != addr), c.1 ≠ addr := by
  intro c hc
  simpa using (List.mem_filter.mp hc).2

/-- Reading after a write, for every memory: the written byte at its address, the old byte anywhere else (20_memory.md R51). -/
theorem read_write (m : Memory) (addr a : Nat) (v : Byte) :
    Memory.read (Memory.write m addr v) a = if a = addr then v else Memory.read m a := by
  unfold Memory.write
  by_cases hv : v = Config.unlistedByte
  · simp only [if_pos hv]
    by_cases ha : a = addr
    · subst ha
      rw [if_pos rfl, hv]
      exact read_of_not_listed (filter_not_listed m a)
    · rw [if_neg ha, read_filter_of_ne ha]
  · simp only [if_neg hv]
    rw [read_insertCell (filter_not_listed m addr)]
    by_cases ha : a = addr
    · simp [ha]
    · simp [ha, read_filter_of_ne ha]

@[simp] theorem read_write_self (m : Memory) (addr : Nat) (v : Byte) : Memory.read (Memory.write m addr v) addr = v := by
  simp [read_write]

theorem read_write_of_ne (m : Memory) {addr a : Nat} (v : Byte) (h : a ≠ addr) :
    Memory.read (Memory.write m addr v) a = Memory.read m a := by
  simp [read_write, h]

/-! ### The canonical form -/

theorem wf_nil : Memory.wf [] := ⟨List.Pairwise.nil, by simp⟩

theorem wf_filter (h : Memory.wf m) (addr : Nat) : Memory.wf (m.filter (fun c => c.1 != addr)) :=
  ⟨h.1.filter _, fun c hc => h.2 c (List.mem_of_mem_filter hc)⟩

theorem mem_insertCell {c : Host.Cell} (h : c ∈ Memory.insertCell addr v m) : c = (addr, v) ∨ c ∈ m := by
  induction m with
  | nil => simpa [Memory.insertCell] using h
  | cons d m ih =>
    obtain ⟨k, w⟩ := d
    simp only [Memory.insertCell] at h
    split at h
    · simpa using h
    · rcases List.mem_cons.mp h with rfl | h
      · simp
      · rcases ih h with h | h <;> simp [h]

theorem wf_insertCell (h : Memory.wf m) (hn : ∀ c ∈ m, c.1 ≠ addr) (ha : addr < Config.memSize) (hv : v ≠ Config.unlistedByte) :
    Memory.wf (Memory.insertCell addr v m) := by
  refine ⟨?_, fun c hc => ?_⟩
  · have hp := h.1
    clear h
    induction m with
    | nil => simp [Memory.insertCell]
    | cons d m ih =>
      obtain ⟨k, w⟩ := d
      have hk : k ≠ addr := hn (k, w) (by simp)
      obtain ⟨h1, h2⟩ := List.pairwise_cons.mp hp
      simp only [Memory.insertCell]
      split
      · next hlt =>
        refine List.pairwise_cons.mpr ⟨fun c hc => ?_, hp⟩
        rcases List.mem_cons.mp hc with rfl | hc
        · exact hlt
        · exact lt_trans hlt (h1 c hc)
      · next hge =>
        refine List.pairwise_cons.mpr ⟨fun c hc => ?_, ih (fun c hc => hn c (by simp [hc])) h2⟩
        rcases mem_insertCell hc with rfl | hc
        · exact lt_of_le_of_ne (not_lt.mp hge) hk
        · exact h1 c hc
  · rcases mem_insertCell hc with rfl | hc
    · exact ⟨ha, hv⟩
    · exact h.2 c hc

/-- A write to one of the 256 cells keeps the canonical form. -/
theorem wf_write (h : Memory.wf m) (ha : addr < Config.memSize) (v : Byte) : Memory.wf (Memory.write m addr v) := by
  unfold Memory.write
  by_cases hv : v = Config.unlistedByte
  · simpa only [if_pos hv] using wf_filter h addr
  · simpa only [if_neg hv] using wf_insertCell (wf_filter h addr) (filter_not_listed m addr) ha hv

/-- A load inside the 256 cells keeps the canonical form (R67). -/
theorem wf_loadImage {image : List Byte} (h : Memory.wf m) (ha : addr + image.length ≤ Config.memSize) :
    Memory.wf (Memory.loadImage m addr image) := by
  induction image generalizing m addr with
  | nil => exact h
  | cons v vs ih =>
    have ha : addr + vs.length + 1 ≤ Config.memSize := by simpa [Nat.add_assoc] using ha
    exact ih (wf_write h (by omega) v) (by omega)

/-- What a load leaves: the image's bytes from its first address on, every other cell as before (R67). -/
theorem read_loadImage (m : Memory) (addr : Nat) (image : List Byte) (a : Nat) :
    Memory.read (Memory.loadImage m addr image) a =
      if addr ≤ a ∧ a < addr + image.length then image.getD (a - addr) 0 else Memory.read m a := by
  induction image generalizing m addr with
  | nil =>
    have h0 : ¬ (addr ≤ a ∧ a < addr + 0) := by omega
    rw [Memory.loadImage, List.length_nil, if_neg h0]
  | cons v vs ih =>
    rw [Memory.loadImage, ih, read_write, List.length_cons]
    by_cases h1 : addr + 1 ≤ a ∧ a < addr + 1 + vs.length
    · have h2 : addr ≤ a ∧ a < addr + (vs.length + 1) := by omega
      have h3 : a - addr = (a - (addr + 1)) + 1 := by omega
      rw [if_pos h1, if_pos h2, h3, List.getD_cons_succ]
    · rw [if_neg h1]
      by_cases h4 : a = addr
      · subst h4
        simp
      · have h2 : ¬ (addr ≤ a ∧ a < addr + (vs.length + 1)) := by omega
        rw [if_neg h4, if_neg h2]

end Sys2Proof.Machine.Memory

namespace Sys2Proof.Machine

/-- A data write keeps the canonical form: its address is 8 bits wide. -/
theorem State.storeByte_wf {s : State} (h : s.mem.wf) (a v : Byte) : (s.storeByte a v).mem.wf :=
  Memory.wf_write h a.isLt v

theorem State.pushReg_wf {s : State} (h : s.mem.wf) (r : RegIndex) : (s.pushReg r).mem.wf :=
  State.storeByte_wf (s := s.writeReg Config.spIndex (s.sp - 1)) h _ _

/-- Placing an instruction word keeps the canonical form. -/
theorem State.withFetchWord_wf {s : State} (h : s.mem.wf) (nbits w : Nat) : (s.withFetchWord nbits w).mem.wf := by
  unfold State.withFetchWord
  split
  · next hp => exact Memory.wf_loadImage h (by simp [wordBytes]; omega)
  · exact h

theorem State.reset_mem_wf : State.reset.mem.wf := Memory.wf_nil

end Sys2Proof.Machine
end

