-- ==== Sys2Proof/Laws/State.lean ====
section
/-! SUPPORT. One lemma per field per update of the state, so that no proof unfolds a record update; then what the register file does. -/

namespace Sys2Proof.Machine

variable (s : State)

/-! ### The register file -/

@[simp] theorem State.readReg_writeReg_self (r : RegIndex) (v : Byte) : (s.writeReg r v).readReg r = v := by
  simp [State.readReg, State.writeReg]

/-- Writing one register leaves every other one alone (10_state.md R21: no aliasing). -/
theorem State.readReg_writeReg_of_ne {r r' : RegIndex} (v : Byte) (h : r' ≠ r) : (s.writeReg r v).readReg r' = s.readReg r' := by
  have hv : r.val ≠ r'.val := fun e => h (Fin.ext e.symm)
  simp [State.readReg, State.writeReg, hv]

/-- The one lemma about reading after a register write. -/
theorem State.readReg_writeReg (r r' : RegIndex) (v : Byte) :
    (s.writeReg r v).readReg r' = if r' = r then v else s.readReg r' := by
  split
  · next h => subst h; simp
  · next h => exact s.readReg_writeReg_of_ne v h

/-! ### writeReg -/

@[simp] theorem State.writeReg_sp (v : Byte) : (s.writeReg Config.spIndex v).sp = v := s.readReg_writeReg_self _ v
@[simp] theorem State.writeReg_pc (r : RegIndex) (v : Byte) : (s.writeReg r v).pc = s.pc := rfl
@[simp] theorem State.writeReg_fl (r : RegIndex) (v : Byte) : (s.writeReg r v).fl = s.fl := rfl
@[simp] theorem State.writeReg_mem (r : RegIndex) (v : Byte) : (s.writeReg r v).mem = s.mem := rfl
@[simp] theorem State.writeReg_run (r : RegIndex) (v : Byte) : (s.writeReg r v).run = s.run := rfl
@[simp] theorem State.writeReg_fault (r : RegIndex) (v : Byte) : (s.writeReg r v).fault = s.fault := rfl
@[simp] theorem State.writeReg_out (r : RegIndex) (v : Byte) : (s.writeReg r v).out = s.out := rfl
@[simp] theorem State.writeReg_diag (r : RegIndex) (v : Byte) : (s.writeReg r v).diag = s.diag := rfl

/-! ### storeByte -/

@[simp] theorem State.storeByte_pc (a v : Byte) : (s.storeByte a v).pc = s.pc := rfl
@[simp] theorem State.storeByte_fl (a v : Byte) : (s.storeByte a v).fl = s.fl := rfl
@[simp] theorem State.storeByte_mem (a v : Byte) : (s.storeByte a v).mem = s.mem.write a.toNat v := rfl
@[simp] theorem State.storeByte_run (a v : Byte) : (s.storeByte a v).run = s.run := rfl
@[simp] theorem State.storeByte_fault (a v : Byte) : (s.storeByte a v).fault = s.fault := rfl
@[simp] theorem State.storeByte_out (a v : Byte) : (s.storeByte a v).out = s.out := rfl
@[simp] theorem State.storeByte_diag (a v : Byte) : (s.storeByte a v).diag = s.diag := rfl
@[simp] theorem State.storeByte_readReg (a v : Byte) (r' : RegIndex) : (s.storeByte a v).readReg r' = s.readReg r' := rfl
@[simp] theorem State.storeByte_sp (a v : Byte) : (s.storeByte a v).sp = s.sp := rfl

/-! ### writePc -/

@[simp] theorem State.writePc_pc (t : PcWord) : (s.writePc t).pc = t := rfl
@[simp] theorem State.writePc_fl (t : PcWord) : (s.writePc t).fl = s.fl := rfl
@[simp] theorem State.writePc_mem (t : PcWord) : (s.writePc t).mem = s.mem := rfl
@[simp] theorem State.writePc_run (t : PcWord) : (s.writePc t).run = s.run := rfl
@[simp] theorem State.writePc_fault (t : PcWord) : (s.writePc t).fault = s.fault := rfl
@[simp] theorem State.writePc_out (t : PcWord) : (s.writePc t).out = s.out := rfl
@[simp] theorem State.writePc_diag (t : PcWord) : (s.writePc t).diag = s.diag := rfl
@[simp] theorem State.writePc_readReg (t : PcWord) (r' : RegIndex) : (s.writePc t).readReg r' = s.readReg r' := rfl
@[simp] theorem State.writePc_sp (t : PcWord) : (s.writePc t).sp = s.sp := rfl

/-! ### writeFlags -/

@[simp] theorem State.writeFlags_pc (f : BitVec 3) : (s.writeFlags f).pc = s.pc := rfl
@[simp] theorem State.writeFlags_fl (f : BitVec 3) : (s.writeFlags f).fl = f.zeroExtend 8 := rfl
@[simp] theorem State.writeFlags_mem (f : BitVec 3) : (s.writeFlags f).mem = s.mem := rfl
@[simp] theorem State.writeFlags_run (f : BitVec 3) : (s.writeFlags f).run = s.run := rfl
@[simp] theorem State.writeFlags_fault (f : BitVec 3) : (s.writeFlags f).fault = s.fault := rfl
@[simp] theorem State.writeFlags_out (f : BitVec 3) : (s.writeFlags f).out = s.out := rfl
@[simp] theorem State.writeFlags_diag (f : BitVec 3) : (s.writeFlags f).diag = s.diag := rfl
@[simp] theorem State.writeFlags_readReg (f : BitVec 3) (r' : RegIndex) : (s.writeFlags f).readReg r' = s.readReg r' := rfl
@[simp] theorem State.writeFlags_sp (f : BitVec 3) : (s.writeFlags f).sp = s.sp := rfl

/-! ### emitOut -/

@[simp] theorem State.emitOut_pc (v : Byte) : (s.emitOut v).pc = s.pc := rfl
@[simp] theorem State.emitOut_fl (v : Byte) : (s.emitOut v).fl = s.fl := rfl
@[simp] theorem State.emitOut_mem (v : Byte) : (s.emitOut v).mem = s.mem := rfl
@[simp] theorem State.emitOut_run (v : Byte) : (s.emitOut v).run = s.run := rfl
@[simp] theorem State.emitOut_fault (v : Byte) : (s.emitOut v).fault = s.fault := rfl
@[simp] theorem State.emitOut_out (v : Byte) : (s.emitOut v).out = s.out ++ [v] := rfl
@[simp] theorem State.emitOut_diag (v : Byte) : (s.emitOut v).diag = s.diag := rfl
@[simp] theorem State.emitOut_readReg (v : Byte) (r' : RegIndex) : (s.emitOut v).readReg r' = s.readReg r' := rfl
@[simp] theorem State.emitOut_sp (v : Byte) : (s.emitOut v).sp = s.sp := rfl

/-! ### emitStackEmpty -/

@[simp] theorem State.emitStackEmpty_pc : (s.emitStackEmpty).pc = s.pc := rfl
@[simp] theorem State.emitStackEmpty_fl : (s.emitStackEmpty).fl = s.fl := rfl
@[simp] theorem State.emitStackEmpty_mem : (s.emitStackEmpty).mem = s.mem := rfl
@[simp] theorem State.emitStackEmpty_run : (s.emitStackEmpty).run = s.run := rfl
@[simp] theorem State.emitStackEmpty_fault : (s.emitStackEmpty).fault = s.fault := rfl
@[simp] theorem State.emitStackEmpty_out : (s.emitStackEmpty).out = s.out := rfl
@[simp] theorem State.emitStackEmpty_diag : (s.emitStackEmpty).diag = s.diag ++ [{ kind := .stackEmpty, pc := s.pc }] := rfl
@[simp] theorem State.emitStackEmpty_readReg (r' : RegIndex) : (s.emitStackEmpty).readReg r' = s.readReg r' := rfl
@[simp] theorem State.emitStackEmpty_sp : (s.emitStackEmpty).sp = s.sp := rfl

/-! ### halt -/

@[simp] theorem State.halt_pc : (s.halt).pc = s.pc := rfl
@[simp] theorem State.halt_fl : (s.halt).fl = s.fl := rfl
@[simp] theorem State.halt_mem : (s.halt).mem = s.mem := rfl
@[simp] theorem State.halt_run : (s.halt).run = .halted := rfl
@[simp] theorem State.halt_fault : (s.halt).fault = s.fault := rfl
@[simp] theorem State.halt_out : (s.halt).out = s.out := rfl
@[simp] theorem State.halt_diag : (s.halt).diag = s.diag := rfl
@[simp] theorem State.halt_readReg (r' : RegIndex) : (s.halt).readReg r' = s.readReg r' := rfl
@[simp] theorem State.halt_sp : (s.halt).sp = s.sp := rfl

/-! ### raise -/

@[simp] theorem State.raise_pc (f : FatalFault) : (s.raise f).pc = s.pc := rfl
@[simp] theorem State.raise_fl (f : FatalFault) : (s.raise f).fl = s.fl := rfl
@[simp] theorem State.raise_mem (f : FatalFault) : (s.raise f).mem = s.mem := rfl
@[simp] theorem State.raise_run (f : FatalFault) : (s.raise f).run = .faulted := rfl
@[simp] theorem State.raise_fault (f : FatalFault) : (s.raise f).fault = some { faultCause := f.code, faultPc := s.pc, faultInfo := f.info } := rfl
@[simp] theorem State.raise_out (f : FatalFault) : (s.raise f).out = s.out := rfl
@[simp] theorem State.raise_diag (f : FatalFault) : (s.raise f).diag = s.diag := rfl
@[simp] theorem State.raise_readReg (f : FatalFault) (r' : RegIndex) : (s.raise f).readReg r' = s.readReg r' := rfl
@[simp] theorem State.raise_sp (f : FatalFault) : (s.raise f).sp = s.sp := rfl

/-! ### incSp -/

@[simp] theorem State.incSp_pc : (s.incSp).pc = s.pc := rfl
@[simp] theorem State.incSp_fl : (s.incSp).fl = s.fl := rfl
@[simp] theorem State.incSp_mem : (s.incSp).mem = s.mem := rfl
@[simp] theorem State.incSp_run : (s.incSp).run = s.run := rfl
@[simp] theorem State.incSp_fault : (s.incSp).fault = s.fault := rfl
@[simp] theorem State.incSp_out : (s.incSp).out = s.out := rfl
@[simp] theorem State.incSp_diag : (s.incSp).diag = s.diag := rfl

/-! ### pushReg -/

@[simp] theorem State.pushReg_pc (r : RegIndex) : (s.pushReg r).pc = s.pc := rfl
@[simp] theorem State.pushReg_fl (r : RegIndex) : (s.pushReg r).fl = s.fl := rfl
@[simp] theorem State.pushReg_mem (r : RegIndex) : (s.pushReg r).mem = s.mem.write (s.sp - 1).toNat ((s.writeReg Config.spIndex (s.sp - 1)).readReg r) := by
  simp [State.pushReg, State.storeByte, State.writeReg_sp]
@[simp] theorem State.pushReg_run (r : RegIndex) : (s.pushReg r).run = s.run := rfl
@[simp] theorem State.pushReg_fault (r : RegIndex) : (s.pushReg r).fault = s.fault := rfl
@[simp] theorem State.pushReg_out (r : RegIndex) : (s.pushReg r).out = s.out := rfl
@[simp] theorem State.pushReg_diag (r : RegIndex) : (s.pushReg r).diag = s.diag := rfl

/-! ### Registers after the stack operations -/

@[simp] theorem State.incSp_sp : s.incSp.sp = s.sp + 1 := s.readReg_writeReg_self _ _

/-- `incSp` moves register 7 only. -/
theorem State.incSp_readReg (r : RegIndex) : s.incSp.readReg r = if r = Config.spIndex then s.sp + 1 else s.readReg r :=
  s.readReg_writeReg _ r _

@[simp] theorem State.pushReg_sp (r : RegIndex) : (s.pushReg r).sp = s.sp - 1 := s.readReg_writeReg_self _ _

/-- `pushReg` moves register 7 only. -/
theorem State.pushReg_readReg (r r' : RegIndex) :
    (s.pushReg r).readReg r' = if r' = Config.spIndex then s.sp - 1 else s.readReg r' :=
  s.readReg_writeReg _ r' _

end Sys2Proof.Machine
end

