-- ==== Sys2Proof/Laws/Ops.lean ====
section
/-! SUPPORT. One lemma per shared operation, saying once what it can do; the proofs about instructions and steps cite these. -/

namespace Sys2Proof.Machine

/-! ### Fatal faults -/

/-- Entering a fatal fault is exactly what R208 lists. -/
theorem raise_eq_faultedWith (s : State) (f : FatalFault) : s.raise f = FaultedWith s f.code f.info := rfl

/-- A byte in a 9-bit latch is the same number. -/
theorem zeroExtend9_eq_ofNat (b : Byte) : b.zeroExtend 9 = BitVec.ofNat 9 b.toNat := by
  apply BitVec.eq_of_toNat_eq
  simp

@[simp] theorem zext9_toNat (b : Byte) : (zext9 b).toNat = b.toNat := by
  have := b.isLt
  simp [zext9]
  omega

/-! ### Operands -/

/-- A byte that names a register is that register's index (30_encoding.md R75). -/
theorem regIndex_of_names {b : Byte} {r : RegIndex} (h : Names b r) : regIndex b = some r := by
  have hb : b.toNat < 8 := h ▸ r.isLt
  simp only [regIndex, dif_pos hb]
  exact congrArg some (Fin.ext h)

/-- A byte above 7 is no index. -/
theorem regIndex_of_bad {b : Byte} (h : 8 ≤ b.toNat) : regIndex b = none := by
  simp [regIndex, Nat.not_lt.mpr h]

/-- A byte names exactly one register, or none. -/
theorem names_or_bad (b : Byte) : (∃ r, Names b r) ∨ 8 ≤ b.toNat := by
  by_cases h : b.toNat < 8
  · exact .inl ⟨⟨b.toNat, h⟩, rfl⟩
  · exact .inr (Nat.not_lt.mp h)

variable {s t : State} {b : Byte} {r : RegIndex} {k : RegIndex → Host.Outcome State Fault Refusal}

theorem withReg_of_names (h : Names b r) : withReg b s k = k r := by
  simp [withReg, regIndex_of_names h]

theorem withReg_of_bad (h : 8 ≤ b.toNat) : withReg b s k = .next (s.raise (.registerIndexOutOfBounds b)) := by
  simp [withReg, regIndex_of_bad h, takeFault]

/-- Everything a register operand can lead to: the handler on the named register, or the fault. -/
theorem withReg_cases (h : withReg b s k = .next t) :
    (∃ r, Names b r ∧ k r = .next t) ∨ (8 ≤ b.toNat ∧ t = s.raise (.registerIndexOutOfBounds b)) := by
  rcases names_or_bad b with ⟨r, hr⟩ | hb
  · exact .inl ⟨r, hr, by rwa [withReg_of_names hr] at h⟩
  · rw [withReg_of_bad hb] at h
    exact .inr ⟨hb, (Host.Outcome.next.inj h).symm⟩

/-! ### Flags -/

/-- A comparison sets exactly one flag (41_alu.md R133). -/
theorem compareFlags_cases (u v : Byte) :
    (u = v ∧ compareFlags u v = 0b001) ∨ (u.toNat < v.toNat ∧ compareFlags u v = 0b100) ∨
      (v.toNat < u.toNat ∧ compareFlags u v = 0b010) := by
  by_cases h : u = v
  · simp [compareFlags, h]
  · have hn : u.toNat ≠ v.toNat := fun e => h (BitVec.eq_of_toNat_eq e)
    by_cases hlt : u.toNat < v.toNat
    · simp [compareFlags, h, hlt]
    · have : v.toNat < u.toNat := by omega
      simp [compareFlags, h, hlt, this]

/-! ### The stack -/

theorem stackEmpty_iff : s.stackEmpty = true ↔ 0xF4 ≤ s.sp.toNat := by
  simp [State.stackEmpty, Config.stackBase, BitVec.le_def]

/-! ### Fetch (40_dispatch_loop.md R102, R103) -/

theorem memRead_of_lt {addr : Nat} (h : addr < 256) : s.memRead addr = .ok (s.mem.read addr) := by
  simp [State.memRead, h]

theorem memRead_of_ge {addr : Nat} (h : 256 ≤ addr) : s.memRead addr = .error (.memoryOutOfBounds addr) := by
  simp [State.memRead, Nat.not_lt.mpr h]

/-- A data read agrees with the bounds-checked read: its address is 8 bits wide (20_memory.md R56). -/
theorem loadByte_eq_memRead (a : Byte) : s.memRead a.toNat = .ok (s.loadByte a) := memRead_of_lt a.isLt

theorem fetch_of_le (h : s.pc.toNat ≤ 253) :
    s.fetch = .ok { ir := s.mem.read s.pc.toNat, opa := s.mem.read (s.pc.toNat + 1), opb := s.mem.read (s.pc.toNat + 2) } := by
  have h0 : s.pc.toNat < 256 := by omega
  have h1 : s.pc.toNat + 1 < 256 := by omega
  have h2 : s.pc.toNat + 2 < 256 := by omega
  simp only [State.fetch, memRead_of_lt h0, memRead_of_lt h1, memRead_of_lt h2]

/-- Above 253 the first address outside memory is reported: 256, or `pc` itself when that is higher. -/
theorem fetch_of_gt (h : 253 < s.pc.toNat) : s.fetch = .error (.memoryOutOfBounds (max s.pc.toNat 256)) := by
  unfold State.fetch
  by_cases h0 : s.pc.toNat < 256
  · by_cases h1 : s.pc.toNat + 1 < 256
    · have h2 : 256 ≤ s.pc.toNat + 2 := by omega
      have : s.pc.toNat + 2 = 256 := by omega
      simp only [memRead_of_lt h0, memRead_of_lt h1, memRead_of_ge h2]
      rw [this, Nat.max_eq_right (by omega)]
    · have : s.pc.toNat + 1 = 256 := by omega
      simp only [memRead_of_lt h0, memRead_of_ge (Nat.not_lt.mp h1)]
      rw [this, Nat.max_eq_right (by omega)]
  · simp only [memRead_of_ge (Nat.not_lt.mp h0)]
    rw [Nat.max_eq_left (by omega)]

/-! ### The end of a step (40_dispatch_loop.md R108, R109) -/

theorem afterHandler_stopped {ir : Byte} {p : PcWord} (h : t.run ≠ .running) : t.afterHandler ir p = t := by
  unfold State.afterHandler
  split <;> simp_all

theorem afterHandler_setsPc {ir : Byte} {p : PcWord} (h : opcodeSetsPc ir = true) : t.afterHandler ir p = t := by
  unfold State.afterHandler
  split <;> simp [h]

theorem afterHandler_advance {ir : Byte} {p : PcWord} (hr : t.run = .running) (h : opcodeSetsPc ir = false) :
    t.afterHandler ir p = t.writePc (sequentialPc ir p) := by
  simp [State.afterHandler, hr, h]

/-- The end of a step touches nothing but `pc`. -/
theorem afterHandler_cases (ir : Byte) (p : PcWord) (t : State) :
    t.afterHandler ir p = t ∨ (t.run = .running ∧ t.afterHandler ir p = t.writePc (sequentialPc ir p)) := by
  by_cases hr : t.run = .running
  · by_cases h : opcodeSetsPc ir = true
    · exact .inl (afterHandler_setsPc h)
    · exact .inr ⟨hr, afterHandler_advance hr (by simpa using h)⟩
  · exact .inl (afterHandler_stopped hr)

/-- The sequential `pc` as a number: no wrap where an instruction can be fetched. -/
theorem sequentialPc_toNat (ir : Byte) {p : PcWord} (h : p.toNat ≤ 253) :
    (sequentialPc ir p).toNat = p.toNat + (opcodeArity ir).toNat + 1 := by
  have hn := (opcodeArity ir).isLt
  simp [sequentialPc, BitVec.toNat_add]
  omega

/-! ### The step (40_dispatch_loop.md R113) -/

/-- Everything a step can do when it answers a state: the machine was running, and it took a fetch fault, an unknown-opcode fault, or
the decoded instruction's handler and the end of the step. -/
theorem step_cases (h : step s = .next t) :
    s.run = .running ∧
    ((253 < s.pc.toNat ∧ t = s.raise (.memoryOutOfBounds (max s.pc.toNat 256))) ∨
     ∃ f : Fetched, s.pc.toNat ≤ 253 ∧ Fetches s f.ir f.opa f.opb ∧
      ((∃ ir, decode f = .error (.unknownOpcode ir) ∧ t = s.raise (.unknownOpcode ir)) ∨
       ∃ i u, decode f = .ok i ∧ exec i s = .next u ∧ t = u.afterHandler f.ir s.pc)) := by
  unfold step at h
  split at h
  · cases h
  · cases h
  · next hr =>
    refine ⟨hr, ?_⟩
    by_cases hp : s.pc.toNat ≤ 253
    · rw [fetch_of_le hp] at h
      refine .inr ⟨⟨s.mem.read s.pc.toNat, s.mem.read (s.pc.toNat + 1), s.mem.read (s.pc.toNat + 2)⟩, hp, ⟨hr, hp, rfl, rfl, rfl⟩, ?_⟩
      simp only at h
      split at h
      · next e he =>
        obtain ⟨ir⟩ := e
        exact .inl ⟨ir, he, (Host.Outcome.next.inj h).symm⟩
      · next i hi =>
        refine .inr ⟨i, ?_⟩
        cases he : exec i s with
        | next u => exact ⟨u, hi, rfl, by simpa [he, completeStep, eq_comm] using h⟩
        | fault f => simp [he, completeStep] at h
        | refused f => simp [he, completeStep] at h
    · rw [fetch_of_gt (by omega)] at h
      exact .inl ⟨by omega, (Host.Outcome.next.inj h).symm⟩

end Sys2Proof.Machine
end

