-- ==== Sys2Proof/Laws/Exec.lean ====
section
/-! SUPPORT. The twelve meanings: what each answers on operands that name registers, and everything exec can do, said once. -/

namespace Sys2Proof.Machine

variable {s t : State} {a b : Byte} {ra rb : RegIndex}

/-- The state a CALL of the register `ra` leaves (43_control_flow.md R165). -/
def calledState (s : State) (ra : RegIndex) : State :=
  let s2 := (s.writeReg Config.linkIndex (returnAddress s.pc)).pushReg Config.linkIndex
  s2.writePc (zext9 (s2.readReg ra))

theorem exec_add (ha : Names a ra) (hb : Names b rb) :
    exec (.add a b) s = .next (s.writeReg ra (s.readReg ra + s.readReg rb)) := by
  simp [exec, execAdd, aluRegReg, withReg_of_names ha, withReg_of_names hb]

theorem exec_sub (ha : Names a ra) (hb : Names b rb) :
    exec (.sub a b) s = .next (s.writeReg ra (s.readReg ra - s.readReg rb)) := by
  simp [exec, execSub, aluRegReg, withReg_of_names ha, withReg_of_names hb]

theorem exec_mul (ha : Names a ra) (hb : Names b rb) :
    exec (.mul a b) s = .next (s.writeReg ra (s.readReg ra * s.readReg rb)) := by
  simp [exec, execMul, aluRegReg, withReg_of_names ha, withReg_of_names hb]

theorem exec_cmp (ha : Names a ra) (hb : Names b rb) :
    exec (.cmp a b) s = .next (s.writeFlags (compareFlags (s.readReg ra) (s.readReg rb))) := by
  simp [exec, execCmp, withReg_of_names ha, withReg_of_names hb]

theorem exec_push (ha : Names a ra) : exec (.push a) s = .next (s.pushReg ra) := by
  simp [exec, execPush, withReg_of_names ha]

theorem exec_pop (ha : Names a ra) (h : s.sp.toNat < 0xF4) :
    exec (.pop a) s = .next (s.writeReg ra (s.loadByte s.sp)).incSp := by
  have he : s.stackEmpty ≠ true := fun he => absurd (stackEmpty_iff.mp he) (by omega)
  simp [exec, execPop, withReg_of_names ha, he]

theorem exec_pop_empty (ha : Names a ra) (h : 0xF4 ≤ s.sp.toNat) : exec (.pop a) s = .next s.emitStackEmpty := by
  simp [exec, execPop, withReg_of_names ha, stackEmpty_iff.mpr h]

theorem exec_call (ha : Names a ra) : exec (.call a) s = .next (calledState s ra) := by
  simp [exec, execCall, withReg_of_names ha, calledState]

theorem exec_ret (h : s.sp.toNat < 0xF4) : exec .ret s = .next (s.incSp.writePc (zext9 (s.loadByte s.sp))) := by
  have he : s.stackEmpty ≠ true := fun he => absurd (stackEmpty_iff.mp he) (by omega)
  simp [exec, execRet, he]

theorem exec_ret_empty (h : 0xF4 ≤ s.sp.toNat) : exec .ret s = .next (s.raise (.stackUnderflow s.sp)) := by
  simp [exec, execRet, stackEmpty_iff.mpr h, takeFault]

theorem exec_jmp (ha : Names a ra) : exec (.jmp a) s = .next (s.writePc (zext9 (s.readReg ra))) := by
  simp [exec, execJmp, withReg_of_names ha]

theorem exec_ldi (ha : Names a ra) : exec (.ldi a b) s = .next (s.writeReg ra b) := by
  simp [exec, execLdi, withReg_of_names ha]

theorem exec_prn (ha : Names a ra) : exec (.prn a) s = .next (s.emitOut (s.readReg ra)) := by
  simp [exec, execPrn, withReg_of_names ha]

/-- Everything exec can do: each instruction's effect, the bad-index fault, and RET's underflow. -/
inductive Effect (s : State) : Instr → State → Prop
  | badIndex {i : Instr} {b : Byte} : b ∈ i.regOperands → 8 ≤ b.toNat → Effect s i (s.raise (.registerIndexOutOfBounds b))
  | add {a b : Byte} {ra rb : RegIndex} : Names a ra → Names b rb → Effect s (.add a b) (s.writeReg ra (s.readReg ra + s.readReg rb))
  | sub {a b : Byte} {ra rb : RegIndex} : Names a ra → Names b rb → Effect s (.sub a b) (s.writeReg ra (s.readReg ra - s.readReg rb))
  | mul {a b : Byte} {ra rb : RegIndex} : Names a ra → Names b rb → Effect s (.mul a b) (s.writeReg ra (s.readReg ra * s.readReg rb))
  | cmp {a b : Byte} {ra rb : RegIndex} : Names a ra → Names b rb →
      Effect s (.cmp a b) (s.writeFlags (compareFlags (s.readReg ra) (s.readReg rb)))
  | push {a : Byte} {ra : RegIndex} : Names a ra → Effect s (.push a) (s.pushReg ra)
  | pop {a : Byte} {ra : RegIndex} : Names a ra → s.sp.toNat < 0xF4 → Effect s (.pop a) (s.writeReg ra (s.loadByte s.sp)).incSp
  | popEmpty {a : Byte} {ra : RegIndex} : Names a ra → 0xF4 ≤ s.sp.toNat → Effect s (.pop a) s.emitStackEmpty
  | call {a : Byte} {ra : RegIndex} : Names a ra → Effect s (.call a) (calledState s ra)
  | ret : s.sp.toNat < 0xF4 → Effect s .ret (s.incSp.writePc (zext9 (s.loadByte s.sp)))
  | retEmpty : 0xF4 ≤ s.sp.toNat → Effect s .ret (s.raise (.stackUnderflow s.sp))
  | jmp {a : Byte} {ra : RegIndex} : Names a ra → Effect s (.jmp a) (s.writePc (zext9 (s.readReg ra)))
  | ldi {a imm : Byte} {ra : RegIndex} : Names a ra → Effect s (.ldi a imm) (s.writeReg ra imm)
  | prn {a : Byte} {ra : RegIndex} : Names a ra → Effect s (.prn a) (s.emitOut (s.readReg ra))
  | hlt : Effect s .hlt s.halt

/-- A meaning that begins with one register operand: its handler on a good index, the fault on a bad one. -/
theorem effect_of_reg {i : Instr} {k : RegIndex → Host.Outcome State Fault Refusal} (hm : b ∈ i.regOperands)
    (h : ∀ r, Names b r → ∃ t, k r = .next t ∧ Effect s i t) : ∃ t, withReg b s k = .next t ∧ Effect s i t := by
  rcases names_or_bad b with ⟨r, hr⟩ | hb
  · rw [withReg_of_names hr]
    exact h r hr
  · exact ⟨_, withReg_of_bad hb, .badIndex hm hb⟩

/-- exec always answers a state, and it is one of the effects above. -/
theorem exec_effect (i : Instr) (s : State) : ∃ t, exec i s = .next t ∧ Effect s i t := by
  cases i with
  | add a b =>
    exact effect_of_reg (i := .add a b) (.head _) fun ra ha =>
      effect_of_reg (i := .add a b) (.tail _ (.head _)) fun rb hb => ⟨_, rfl, .add ha hb⟩
  | sub a b =>
    exact effect_of_reg (i := .sub a b) (.head _) fun ra ha =>
      effect_of_reg (i := .sub a b) (.tail _ (.head _)) fun rb hb => ⟨_, rfl, .sub ha hb⟩
  | mul a b =>
    exact effect_of_reg (i := .mul a b) (.head _) fun ra ha =>
      effect_of_reg (i := .mul a b) (.tail _ (.head _)) fun rb hb => ⟨_, rfl, .mul ha hb⟩
  | cmp a b =>
    exact effect_of_reg (i := .cmp a b) (.head _) fun ra ha =>
      effect_of_reg (i := .cmp a b) (.tail _ (.head _)) fun rb hb => ⟨_, rfl, .cmp ha hb⟩
  | push a => exact effect_of_reg (i := .push a) (.head _) fun ra ha => ⟨_, rfl, .push ha⟩
  | pop a =>
    refine effect_of_reg (i := .pop a) (.head _) fun ra ha => ?_
    by_cases h : 0xF4 ≤ s.sp.toNat
    · exact ⟨_, if_pos (stackEmpty_iff.mpr h), .popEmpty ha h⟩
    · exact ⟨_, if_neg fun he => h (stackEmpty_iff.mp he), .pop ha (Nat.not_le.mp h)⟩
  | call a => exact effect_of_reg (i := .call a) (.head _) fun ra ha => ⟨_, rfl, .call ha⟩
  | ret =>
    by_cases h : 0xF4 ≤ s.sp.toNat
    · exact ⟨_, exec_ret_empty h, .retEmpty h⟩
    · exact ⟨_, exec_ret (Nat.not_le.mp h), .ret (Nat.not_le.mp h)⟩
  | jmp a => exact effect_of_reg (i := .jmp a) (.head _) fun ra ha => ⟨_, rfl, .jmp ha⟩
  | ldi a imm => exact effect_of_reg (i := .ldi a imm) (.head _) fun ra ha => ⟨_, rfl, .ldi ha⟩
  | prn a => exact effect_of_reg (i := .prn a) (.head _) fun ra ha => ⟨_, rfl, .prn ha⟩
  | hlt => exact ⟨_, rfl, .hlt⟩

/-- The inversion of exec: if it answers `t`, then `t` is one of the effects. -/
theorem effect_of_exec {i : Instr} (h : exec i s = .next t) : Effect s i t := by
  obtain ⟨u, hu, he⟩ := exec_effect i s
  rw [hu] at h
  cases h
  exact he

/-! ### The state after CALL -/

@[simp] theorem calledState_sp : (calledState s ra).sp = s.sp - 1 := by
  have h : (s.writeReg Config.linkIndex (returnAddress s.pc)).sp = s.sp := s.readReg_writeReg_of_ne _ (by decide)
  simp only [calledState, State.writePc_sp, State.pushReg_sp, h]

/-- CALL moves registers 6 and 7 only. -/
theorem calledState_readReg (r : RegIndex) :
    (calledState s ra).readReg r = if r = 7 then s.sp - 1 else if r = 6 then returnAddress s.pc else s.readReg r := by
  have h : (s.writeReg Config.linkIndex (returnAddress s.pc)).sp = s.sp := s.readReg_writeReg_of_ne _ (by decide)
  simp only [calledState, State.writePc_readReg, State.pushReg_readReg, State.readReg_writeReg, h]

/-- The target is read after registers 6 and 7 were written (D12). -/
theorem calledState_pc : (calledState s ra).pc = zext9 ((calledState s ra).readReg ra) := rfl

theorem calledState_mem : (calledState s ra).mem = s.mem.write (s.sp - 1).toNat (returnAddress s.pc) := by
  have h : (s.writeReg Config.linkIndex (returnAddress s.pc)).sp = s.sp := s.readReg_writeReg_of_ne _ (by decide)
  simp only [calledState, State.writePc_mem, State.pushReg_mem, State.readReg_writeReg, h, State.writeReg_mem]
  rfl

@[simp] theorem calledState_fl : (calledState s ra).fl = s.fl := rfl
@[simp] theorem calledState_run : (calledState s ra).run = s.run := rfl
@[simp] theorem calledState_fault : (calledState s ra).fault = s.fault := rfl
@[simp] theorem calledState_out : (calledState s ra).out = s.out := rfl
@[simp] theorem calledState_diag : (calledState s ra).diag = s.diag := rfl

end Sys2Proof.Machine
end

