-- ==== Sys2Proof/Laws/PerInstr.lean ====
section
/-! SUPPORT. Statements made per instruction: the shape of an encoding (30_encoding.md R70, R74, R78). -/

namespace Sys2Proof.Laws.EncodingShape

/-- The opcode byte of the table of R77, by instruction. -/
def opcodeOf : Instr → Byte
  | .add _ _ => 0xA0
  | .sub _ _ => 0xA1
  | .mul _ _ => 0xA2
  | .cmp _ _ => 0xA7
  | .push _ => 0x45
  | .pop _ => 0x46
  | .call _ => 0x50
  | .ret => 0x11
  | .jmp _ => 0x54
  | .ldi _ _ => 0x82
  | .prn _ => 0x47
  | .hlt => 0x01

/-- An instruction's bytes are its opcode byte and then its operand bytes, unchanged and in order. -/
def Statement (i : Instr) : Prop := encode i = opcodeOf i :: i.operands

theorem add (a b : Byte) : Statement (.add a b) := rfl
theorem sub (a b : Byte) : Statement (.sub a b) := rfl
theorem mul (a b : Byte) : Statement (.mul a b) := rfl
theorem cmp (a b : Byte) : Statement (.cmp a b) := rfl
theorem push (a : Byte) : Statement (.push a) := rfl
theorem pop (a : Byte) : Statement (.pop a) := rfl
theorem call (a : Byte) : Statement (.call a) := rfl
theorem ret : Statement .ret := rfl
theorem jmp (a : Byte) : Statement (.jmp a) := rfl
theorem ldi (a imm : Byte) : Statement (.ldi a imm) := rfl
theorem prn (a : Byte) : Statement (.prn a) := rfl
theorem hlt : Statement .hlt := rfl

end Sys2Proof.Laws.EncodingShape
end

