-- ==== Sys2Proof/Laws/Run.lean ====
section
/-! SUPPORT. Runs: how a run of `k + 1` steps splits at either end, and the induction over a run, packaged once. -/

namespace Sys2Proof.Machine

variable {k : Nat} {s t : State}

theorem runsTo_zero : RunsTo 0 s t ↔ t = s := by
  show Host.Outcome.next s = .next t ↔ t = s
  exact ⟨fun h => (Host.Outcome.next.inj h).symm, fun h => by rw [h]⟩

/-- A run of any machine begins with a step. -/
theorem run_succ_next (M : Host.Core) (k : Nat) (s t : M.State) :
    M.run (k + 1) s = .next t ↔ ∃ u, M.step s = .next u ∧ M.run k u = .next t := by
  rw [Host.Core.run]
  cases M.step s <;> simp

/-- And it stops where the first step stops, or later. -/
theorem run_succ_fault (M : Host.Core) (k : Nat) (s : M.State) (r : M.Fault) :
    M.run (k + 1) s = .fault r ↔ M.step s = .fault r ∨ ∃ u, M.step s = .next u ∧ M.run k u = .fault r := by
  rw [Host.Core.run]
  cases M.step s <;> simp

/-- A run begins with a step. -/
theorem runsTo_succ : RunsTo (k + 1) s t ↔ ∃ u, step s = .next u ∧ RunsTo k u t := run_succ_next Sys2Proof.core k s t

/-- A run ends with a step. -/
theorem runsTo_succ_last : RunsTo (k + 1) s t ↔ ∃ u, RunsTo k s u ∧ step u = .next t := by
  induction k generalizing s with
  | zero => simp [runsTo_succ, runsTo_zero, eq_comm]
  | succ k ih =>
    rw [runsTo_succ]
    constructor
    · rintro ⟨u, hu, h⟩
      obtain ⟨w, hw, h⟩ := ih.mp h
      exact ⟨w, runsTo_succ.mpr ⟨u, hu, hw⟩, h⟩
    · rintro ⟨w, hw, h⟩
      obtain ⟨u, hu, hw⟩ := runsTo_succ.mp hw
      exact ⟨u, hu, ih.mpr ⟨w, hw, h⟩⟩

/-- What every step keeps, every run keeps. -/
theorem run_keeps {P : State → Prop} (hstep : ∀ u v, P u → step u = .next v → P v) (h : RunsTo k s t) (hs : P s) : P t := by
  induction k generalizing s with
  | zero => rwa [runsTo_zero.mp h]
  | succ k ih =>
    obtain ⟨u, hu, h⟩ := runsTo_succ.mp h
    exact ih h (hstep s u hs hu)

end Sys2Proof.Machine
end

