-- ==== Sys2Proof/Tests/Slice0.lean ====
section
/-! SUPPORT. Tests: decoding against words written out from 30_encoding.md R74 and R77, one-step vectors from 95_test_vectors.md (each named by
its V number there), the refusals of WellFormed, and for every statement with hypotheses a state that meets them. -/

namespace Sys2Proof.Tests

open Sys2Proof.Machine

/-! ### Helpers -/

/-- The reset state with `pc`, bytes placed at `pc`, registers and further cells set (the convention of 95_test_vectors.md). -/
def start (pc : PcWord) (bytes : List Byte) (regs : List (RegIndex × Byte)) (cells : List (Nat × Byte)) : State :=
  let s := { State.reset with pc := pc, mem := State.reset.mem.loadImage pc.toNat bytes }
  let s := regs.foldl (fun s r => s.writeReg r.1 r.2) s
  cells.foldl (fun s c => { s with mem := s.mem.write c.1 c.2 }) s

/-- The step answers a state that passes the test. -/
def stepGives (s : State) (p : State → Bool) : Bool :=
  match step s with
  | .next t => p t
  | .fault _ => false
  | .refused _ => false

/-- The step answers exactly this state. -/
def stepIs (s t : State) : Bool := stepGives s fun u => decide (u = t)

/-! ### WellFormed: an ill-formed term for each check, and the accepted boundary -/

theorem smoke_first_operand_refused :
    ([.add 8 0, .sub 8 0, .mul 8 0, .cmp 8 0, .push 8, .pop 8, .call 8, .jmp 8, .ldi 8 0, .prn 8] : List Instr).all
      (fun i => !i.wellFormed) = true := by decide

theorem smoke_second_operand_refused :
    ([.add 0 8, .sub 0 8, .mul 0 8, .cmp 0 255] : List Instr).all (fun i => !i.wellFormed) = true := by decide

theorem smoke_boundary_accepted :
    ([.add 7 7, .cmp 0 7, .pop 7, .ldi 7 255, .ret, .hlt] : List Instr).all (fun i => i.wellFormed) = true := by decide

/-! ### Decoding: one word per row of R77, written out from its binary pattern, operands `a` = 1, `b` = 2 -/

theorem test_decode_add : decode { ir := 0b10100000, opa := 1, opb := 2 } = .ok (.add 1 2) := by rfl
theorem test_decode_sub : decode { ir := 0b10100001, opa := 1, opb := 2 } = .ok (.sub 1 2) := by rfl
theorem test_decode_mul : decode { ir := 0b10100010, opa := 1, opb := 2 } = .ok (.mul 1 2) := by rfl
theorem test_decode_cmp : decode { ir := 0b10100111, opa := 1, opb := 2 } = .ok (.cmp 1 2) := by rfl
theorem test_decode_push : decode { ir := 0b01000101, opa := 1, opb := 2 } = .ok (.push 1) := by rfl
theorem test_decode_pop : decode { ir := 0b01000110, opa := 1, opb := 2 } = .ok (.pop 1) := by rfl
theorem test_decode_call : decode { ir := 0b01010000, opa := 1, opb := 2 } = .ok (.call 1) := by rfl
theorem test_decode_ret : decode { ir := 0b00010001, opa := 1, opb := 2 } = .ok .ret := by rfl
theorem test_decode_jmp : decode { ir := 0b01010100, opa := 1, opb := 2 } = .ok (.jmp 1) := by rfl
theorem test_decode_ldi : decode { ir := 0b10000010, opa := 1, opb := 2 } = .ok (.ldi 1 2) := by rfl
theorem test_decode_prn : decode { ir := 0b01000111, opa := 1, opb := 2 } = .ok (.prn 1) := by rfl
theorem test_decode_hlt : decode { ir := 0b00000001, opa := 1, opb := 2 } = .ok .hlt := by rfl

/-- The table's twelve rows do not overlap (R78). -/
theorem test_twelve_distinct_opcodes : opcodes.Nodup ∧ opcodes.length = 12 := by decide

/-- Bytes in the table's numbering: the first byte is the lowest; bits above `nbits` are 0 (R85: `A0 00 01`, `45 02`). -/
theorem test_table_word_add : decodeTableWord 24 0x0100A0 = some (.add 0 1) := by decide

theorem test_table_word_short : decodeTableWord 8 0x010082 = some (.ldi 0 0) := by decide

/-! ### One-step vectors of 95_test_vectors.md -/

theorem test_v6_add_r7_wraps_and_keeps_fl : stepGives { start 0 [0xA0, 7, 0] [(0, 0x10)] [] with fl := 0x04 }
    (fun t => t.sp == 0x04 && t.fl == 0x04 && t.pc == 3) = true := by decide
theorem test_v8_sub_borrows : stepGives (start 0 [0xA1, 0, 1] [(0, 0x03), (1, 0x05)] [])
    (fun t => t.readReg 0 == 0xFE && t.pc == 3) = true := by decide
theorem test_v13_sub_operand_order : stepGives (start 0 [0xA1, 1, 0] [(0, 0x2C), (1, 0x64)] [])
    (fun t => t.readReg 1 == 0x38 && t.readReg 0 == 0x2C) = true := by decide
theorem test_v16_mul_low_byte : stepGives (start 0 [0xA2, 0, 1] [(0, 0xFF), (1, 0xFF)] [])
    (fun t => t.readReg 0 == 0x01 && t.pc == 3) = true := by decide
theorem test_v18_mul_square : stepGives (start 0 [0xA2, 1, 1] [(1, 0x38)] []) (fun t => t.readReg 1 == 0x40) = true := by decide
theorem test_v27_cmp_unsigned : stepGives (start 0 [0xA7, 0, 1] [(0, 0x80), (1, 0x7F)] [])
    (fun t => t.fl == 0x02 && t.readReg 0 == 0x80 && t.pc == 3) = true := by decide
theorem test_v28_cmp_clears_stale_flag : stepGives { start 0 [0xA7, 0, 1] [(0, 5), (1, 5)] [] with fl := 0x04 }
    (fun t => t.fl == 0x01) = true := by decide
theorem test_v31_push_r7 : stepGives (start 0 [0x45, 7] [] [])
    (fun t => t.sp == 0xF3 && t.mem.read 0xF3 == 0xF3 && t.pc == 2) = true := by decide
theorem test_v32_push_wraps : stepGives (start 0 [0x45, 0] [(0, 0xAB), (7, 0)] [])
    (fun t => t.sp == 0xFF && t.mem.read 0xFF == 0xAB) = true := by decide
theorem test_v36_pop_r7 : stepGives (start 0 [0x46, 7] [(7, 0xF3)] [(0xF3, 0x20)]) (fun t => t.sp == 0x21 && t.pc == 2) = true := by decide
theorem test_v38_pop_empty_warns : stepIs (start 0 [0x46, 1] [(1, 0x55), (7, 0xF5)] [(0xF5, 0x99)])
    { start 0 [0x46, 1] [(1, 0x55), (7, 0xF5)] [(0xF5, 0x99)] with pc := 2, diag := [{ kind := .stackEmpty, pc := 0 }] } = true := by decide
theorem test_v46_call_r6 : stepGives (start 0x10 [0x50, 6] [(6, 0x77)] [])
    (fun t => t.readReg 6 == 0x12 && t.sp == 0xF3 && t.mem.read 0xF3 == 0x12 && t.pc == 0x12) = true := by decide
theorem test_v47_call_r7 : stepGives (start 0x10 [0x50, 7] [] []) (fun t => t.pc == 0xF3 && t.mem.read 0xF3 == 0x12) = true := by decide
theorem test_v50_ret_keeps_r6 : stepGives (start 0x40 [0x11] [(6, 0x99), (7, 0xF3)] [(0xF3, 0x12)])
    (fun t => t.pc == 0x12 && t.sp == 0xF4 && t.readReg 6 == 0x99) = true := by decide
theorem test_v52_ret_underflow : stepIs (start 0x40 [0x11] [(7, 0xFF)] [(0xFF, 0x12)])
    (FaultedWith (start 0x40 [0x11] [(7, 0xFF)] [(0xFF, 0x12)]) 4 0xFF) = true := by decide
theorem test_v55_jmp : stepGives (start 0x0F [0x54, 2] [(2, 0x12)] []) (fun t => t.pc == 0x12) = true := by decide
theorem test_v57_jmp_to_254 : stepGives (start 0 [0x54, 0] [(0, 0xFE)] []) (fun t => t.pc == 0xFE && t.run == .running) = true := by decide
theorem test_v61_ldi_ff : stepGives (start 0 [0x82, 3, 0xFF] [] []) (fun t => t.readReg 3 == 0xFF && t.pc == 3) = true := by decide
theorem test_v86_ldi_at_253 : stepGives (start 0xFD [0x82, 0, 7] [] []) (fun t => t.readReg 0 == 7 && t.pc == 0x100) = true := by decide
theorem test_v66_prn_r7 : stepGives (start 0 [0x47, 7] [] []) (fun t => t.out == [0xF4] && t.pc == 2) = true := by decide
theorem test_v65_prn_appends : stepGives { start 0 [0x47, 0] [(0, 0x11)] [] with out := [0x2A] } (fun t => t.out == [0x2A, 0x11]) = true := by decide
theorem test_v85_hlt_at_253 : stepIs (start 0xFD [0x01] [] []) { start 0xFD [0x01] [] [] with run := .halted } = true := by decide

/-! ### Faults and their order (95_test_vectors.md section 2.5) -/

theorem test_v40_pop_bad_index_on_empty_stack : stepIs (start 0 [0x46, 9] [] []) (FaultedWith (start 0 [0x46, 9] [] []) 3 9) = true := by decide
theorem test_v78_first_index_first : stepIs (start 0 [0xA0, 9, 8] [] []) (FaultedWith (start 0 [0xA0, 9, 8] [] []) 3 9) = true := by decide
theorem test_v77_second_index : stepIs (start 0 [0xA0, 0, 8] [(0, 1)] []) (FaultedWith (start 0 [0xA0, 0, 8] [(0, 1)] []) 3 8) = true := by decide
theorem test_v83_bounds_before_opcode : stepIs (start 0xFE [0] [] []) (FaultedWith (start 0xFE [0] [] []) 2 0x100) = true := by decide
theorem test_v87_fetch_at_256 : stepIs (start 0x100 [] [(0, 7)] []) (FaultedWith (start 0x100 [] [(0, 7)] []) 2 0x100) = true := by decide
theorem test_v76_top_bits_11 : stepIs (start 0 [0xC0, 0, 0] [] []) (FaultedWith (start 0 [0xC0, 0, 0] [] []) 1 0xC0) = true := by decide
theorem test_v88_opcode_before_operands : stepIs (start 0 [0, 0xFF, 0xFF] [] []) (FaultedWith (start 0 [0, 0xFF, 0xFF] [] []) 1 0) = true := by decide

/-! ### Memory, load, reset -/

theorem test_write_unlisted_value_removes_entry : Memory.write [(1, 5), (7, 9)] 7 0 = [(1, 5)] := by decide
theorem test_write_keeps_order : Memory.write [(1, 5), (7, 9)] 3 2 = [(1, 5), (3, 2), (7, 9)] := by decide
theorem test_load_at_top : (State.resetWith [0x11] 0xFF).map (fun s => s.mem.read 0xFF) = some 0x11 := by decide
theorem test_load_past_top_refused : State.resetWith [0x11, 0x11] 0xFF = none := by decide
theorem test_fetch_word_runs_first : stepGives (State.reset.withFetchWord 24 0x080082)
    (fun t => t.readReg 0 == 8 && t.pc == 3) = true := by decide

/-! ### Witnesses: every statement with hypotheses has a state and operands that meet them, at the boundaries of its clauses -/

theorem witness_EncodeOfDecodeIsTheFetchedBytes : ∃ i, decode { ir := 0x82, opa := 7, opb := 255 } = .ok i := ⟨_, rfl⟩

/-- LDI at 253, the last address an instruction can stand at. -/
theorem witness_StepRunsTheDecodedInstruction :
    Fetches (start 0xFD [0x82, 0, 7] [] []) 0x82 0 7 ∧ decode { ir := 0x82, opa := 0, opb := 7 } = .ok (.ldi 0 7) :=
  ⟨by decide, rfl⟩

theorem witness_LoopAdvancesPcUnlessHandlerSetsIt_advance :
    Fetches (start 0xFD [0x82, 0, 7] [] []) 0x82 0 7 ∧ decode { ir := 0x82, opa := 0, opb := 7 } = .ok (.ldi 0 7) ∧
      ∃ t, exec (.ldi 0 7) (start 0xFD [0x82, 0, 7] [] []) = .next t ∧ t.run = .running ∧ opcodeSetsPc 0x82 = false :=
  ⟨by decide, rfl, _, rfl, rfl, by decide⟩

theorem witness_LoopAdvancesPcUnlessHandlerSetsIt_set :
    Fetches (start 0xFD [0x54, 0] [] []) 0x54 0 0 ∧ decode { ir := 0x54, opa := 0, opb := 0 } = .ok (.jmp 0) ∧
      ∃ t, exec (.jmp 0) (start 0xFD [0x54, 0] [] []) = .next t ∧ t.run = .running ∧ opcodeSetsPc 0x54 = true :=
  ⟨by decide, rfl, _, rfl, rfl, by decide⟩

theorem witness_HaltOrFaultHoldsPc_halt :
    Fetches (start 0xFD [0x01] [] []) 0x01 0 0 ∧ decode { ir := 0x01, opa := 0, opb := 0 } = .ok .hlt ∧
      ∃ t, exec .hlt (start 0xFD [0x01] [] []) = .next t ∧ t.run ≠ .running := ⟨by decide, rfl, _, rfl, by decide⟩

theorem witness_HaltOrFaultHoldsPc_fault :
    Fetches (start 0 [0x45, 8] [] []) 0x45 8 0 ∧ decode { ir := 0x45, opa := 8, opb := 0 } = .ok (.push 8) ∧
      ∃ t, exec (.push 8) (start 0 [0x45, 8] [] []) = .next t ∧ t.run ≠ .running := ⟨by decide, rfl, _, rfl, by decide⟩

theorem witness_PcAfterEachOpcode_sequential :
    (Fetches (start 0xFD [0xA7, 0, 1] [] []) 0xA7 0 1 ∧ ∃ t, step (start 0xFD [0xA7, 0, 1] [] []) = .next t ∧ t.run = .running) ∧
    (Fetches (start 0xFD [0x47, 0] [] []) 0x47 0 0 ∧ ∃ t, step (start 0xFD [0x47, 0] [] []) = .next t ∧ t.run = .running) :=
  ⟨⟨by decide, _, rfl, rfl⟩, by decide, _, rfl, rfl⟩

theorem witness_PcAfterEachOpcode_transfers :
    (Fetches (start 0x10 [0x50, 7] [] []) 0x50 7 0 ∧ ∃ t, step (start 0x10 [0x50, 7] [] []) = .next t ∧ t.run = .running) ∧
    (Fetches (start 0x10 [0x54, 7] [] []) 0x54 7 0 ∧ ∃ t, step (start 0x10 [0x54, 7] [] []) = .next t ∧ t.run = .running) ∧
    (Fetches (start 0x10 [0x11] [(7, 0xF3)] []) 0x11 0 0 ∧
      ∃ t, step (start 0x10 [0x11] [(7, 0xF3)] []) = .next t ∧ t.run = .running) :=
  ⟨⟨by decide, _, rfl, rfl⟩, ⟨by decide, _, rfl, rfl⟩, by decide, _, rfl, rfl⟩

theorem witness_RunningStepAlwaysAnswersAState : (start 0x1FF [] [] []).run = .running := rfl

theorem witness_TerminalStatesHaveNoStep :
    State.reset.halt.run = .halted ∧ (State.reset.raise (.unknownOpcode 0)).run = .faulted := ⟨rfl, rfl⟩

theorem witness_FetchAbove253FaultsOutOfBounds :
    (start 0xFE [] [] []).run = .running ∧ 254 ≤ (start 0xFE [] [] []).pc.toNat ∧ (start 0x100 [] [] []).run = .running ∧
      (start 0x100 [] [] []).pc.toNat ≤ 256 ∧ 254 ≤ (start 0x100 [] [] []).pc.toNat := by decide

theorem witness_UnknownOpcodeFaultsWithItsByte :
    Fetches (start 0xFD [0xFF, 9, 9] [] []) 0xFF 9 9 ∧ (0xFF : Byte) ∉ opcodes := by decide

theorem witness_FirstOperandAbove7Faults : 8 ≤ (8 : Byte).toNat ∧ 8 ≤ (255 : Byte).toNat := by decide

theorem witness_SecondOperandAbove7Faults : (7 : Byte).toNat < 8 ∧ 8 ≤ (8 : Byte).toNat := by decide

theorem witness_RetOnEmptyStackFaults : 0xF4 ≤ State.reset.sp.toNat ∧ 0xF4 ≤ (start 0 [] [(7, 0xFF)] []).sp.toNat := by decide

theorem witness_FaultingStepIsPrecise :
    (start 0x100 [] [] []).pc.toNat ≤ 256 ∧ ∃ t, step (start 0x100 [] [] []) = .next t ∧ t.run = .faulted :=
  ⟨by decide, _, rfl, rfl⟩

theorem witness_StepHaltsExactlyOnHlt :
    (start 0xFD [1] [] []).run = .running ∧ ∃ t, step (start 0xFD [1] [] []) = .next t ∧ t.run = .halted := ⟨rfl, _, rfl, rfl⟩

theorem witness_RegisterFileHoldsEightIndependentBytes : (0 : RegIndex) ≠ 7 := by decide

/-- Bytes at the two ends of memory, and an image that fills the last cell. -/
theorem witness_MemoryGivesTheLatestByteWritten : (0 : Byte) ≠ 255 ∧ ∃ s, State.resetWith [0x11] 0xFF = some s := ⟨by decide, _, rfl⟩

theorem witness_CanonicalMemoriesThatReadAlikeAreEqual :
    Memory.wf [(0, 1), (255, 2)] ∧ ∀ a, Memory.read [(0, 1), (255, 2)] a = Memory.read (Memory.write [(0, 1)] 255 2) a :=
  ⟨by decide, fun _ => rfl⟩

theorem witness_ResetValues : (6 : RegIndex) ≠ 7 := by decide

theorem witness_LoadPortAcceptsExactlyImagesThatFit :
    (0xFF : Byte).toNat + [(1 : Byte)].length ≤ 256 ∧ 256 < (0xFF : Byte).toNat + [(1 : Byte), 1].length := by decide

theorem witness_FirstFetchIsAtAddressZero :
    (∃ s, State.resetWith [0x01] = some s) ∧ (∃ s, State.resetWith [0x01] 1 = some s) ∧ 0 < (1 : Byte).toNat :=
  ⟨⟨_, rfl⟩, ⟨_, rfl⟩, by decide⟩

theorem witness_AddWritesSumModulo256 : Names 0 0 ∧ Names 0 0 := by decide
theorem witness_SubWritesDifferenceModulo256 : Names 7 7 ∧ Names 0 0 := by decide
theorem witness_MulWritesProductModulo256 : Names 7 7 ∧ Names 7 7 := by decide
theorem witness_CmpSetsExactlyOneFlag : Names 6 6 ∧ Names 7 7 := by decide
theorem witness_AluTreatsSpecialRegistersAsAny : Names 7 7 ∧ Names 6 6 ∧ (7 : RegIndex) = 7 := by decide
theorem witness_SubUndoesAdd : Names 7 7 ∧ Names 0 0 ∧ (7 : RegIndex) ≠ 0 := by decide
theorem witness_EveryRegisterWriteWrapsModulo256 :
    Names 0 0 ∧ Names 7 7 ∧ (start 0 [] [(7, 0xF3)] []).sp.toNat < 0xF4 ∧ (0 : RegIndex) ≠ 7 := by decide

/-- The hypotheses of the statements about one register operand. -/
theorem witness_PushStoresBelowStackPointer : Names 0 0 ∧ Names 7 7 := by decide
theorem witness_JmpSetsPcToRegister : Names 7 7 := by decide
theorem witness_LdiWritesImmediate : Names 7 7 := by decide
theorem witness_PrnAppendsRegisterToOutput : Names 7 7 := by decide
theorem witness_CallPushesReturnAddressAndJumps : Names 5 5 ∧ Names 6 6 ∧ Names 7 7 := by decide

theorem witness_PopLoadsFromStackPointer :
    Names 0 0 ∧ (0 : RegIndex) ≠ 7 ∧ Names 7 7 ∧ (start 0 [] [(7, 0xF3)] []).sp.toNat < 0xF4 ∧
      (start 0 [] [(7, 0)] []).sp.toNat < 0xF4 := by decide

theorem witness_PopOnEmptyStackOnlyWarns :
    Names 7 7 ∧ 0xF4 ≤ State.reset.sp.toNat ∧ 0xF4 ≤ (start 0 [] [(7, 0xFF)] []).sp.toNat := by decide

theorem witness_StackIsFullDescending :
    Names 0 0 ∧ (0 : RegIndex) ≠ 7 ∧ (start 0 [] [(7, 0xF3)] []).sp.toNat < 0xF4 ∧ 0xF4 ≤ State.reset.sp.toNat := by decide

theorem witness_PushThenPopRoundTrips_restores :
    Names 6 6 ∧ (6 : RegIndex) ≠ 7 ∧ 1 ≤ State.reset.sp.toNat ∧ State.reset.sp.toNat ≤ 0xF4 ∧
      1 ≤ (start 0 [] [(7, 1)] []).sp.toNat ∧ (start 0 [] [(7, 1)] []).sp.toNat ≤ 0xF4 := by decide

theorem witness_PushThenPopRoundTrips_empty :
    (start 0 [] [(7, 0)] []).sp.toNat = 0 ∧ 0xF4 < (start 0 [] [(7, 0xF5)] []).sp.toNat := by decide

theorem witness_RetJumpsToPoppedByte :
    (start 0 [] [(7, 0xF3)] []).sp.toNat < 0xF4 ∧ (start 0 [] [(7, 0)] []).sp.toNat < 0xF4 := by decide

/-- CALL at the last address with the stack at both ends; the state the CALL leaves is one to return from. -/
theorem witness_RetResumesAfterCall :
    Names 1 1 ∧ (start 0xFD [] [(7, 1)] []).pc.toNat ≤ 253 ∧ 1 ≤ (start 0xFD [] [(7, 1)] []).sp.toNat ∧
      (start 0xFD [] [(7, 1)] []).sp.toNat ≤ 0xF4 ∧ State.reset.sp.toNat ≤ 0xF4 ∧
      ∃ t, exec (.call 1) (start 0xFD [] [(7, 1)] []) = .next t := ⟨by decide, by decide, by decide, by decide, by decide, _, rfl⟩

theorem witness_JumpToItselfNeverEnds :
    Fetches (start 0xFD [0x54, 2] [(2, 0xFD)] []) 0x54 2 0 ∧ Names 2 2 ∧
      ((start 0xFD [0x54, 2] [(2, 0xFD)] []).readReg 2).toNat = (start 0xFD [0x54, 2] [(2, 0xFD)] []).pc.toNat := by decide

theorem witness_OnlyNamedInstructionsTouchEachPart :
    (∃ t, exec (.push 7) State.reset = .next t ∧ t.mem ≠ State.reset.mem) ∧
    (∃ t, exec (.cmp 0 1) State.reset = .next t ∧ t.fl ≠ State.reset.fl) ∧
    (∃ t, exec (.prn 0) State.reset = .next t ∧ t.out ≠ State.reset.out) ∧
    (∃ t, exec (.pop 0) State.reset = .next t ∧ t.diag ≠ State.reset.diag) ∧
    (∃ t, exec .hlt State.reset = .next t ∧ t.run ≠ State.reset.run) ∧
    (∃ t, exec .ret State.reset = .next t ∧ t.run ≠ State.reset.run) :=
  ⟨⟨_, rfl, by decide⟩, ⟨_, rfl, by decide⟩, ⟨_, rfl, by decide⟩, ⟨_, rfl, by decide⟩, ⟨_, rfl, by decide⟩, ⟨_, rfl, by decide⟩⟩

theorem witness_OnlyNamedRegistersChange :
    (∃ t, exec (.ldi 0 9) State.reset = .next t ∧ t.readReg 0 ≠ State.reset.readReg 0) ∧
    (∃ t, exec (.push 0) State.reset = .next t ∧ t.readReg 7 ≠ State.reset.readReg 7) ∧
    (∃ t, exec (.call 0) State.reset = .next t ∧ t.readReg 6 ≠ State.reset.readReg 6) :=
  ⟨⟨_, rfl, by decide⟩, ⟨_, rfl, by decide⟩, ⟨_, rfl, by decide⟩⟩

/-- A run that goes on, and one that stops: HLT at 0, one step and two. -/
theorem witness_FlagsAreUnobservable :
    (∃ t, RunsTo 1 (start 0 [1] [] []) t) ∧ Sys2Proof.core.run 2 (start 0 [1] [] []) = .fault .noStepWhenHalted :=
  ⟨⟨_, rfl⟩, rfl⟩

theorem witness_StreamsOnlyGrowAndAreNeverRead : ∃ t, RunsTo 1 (start 0 [0x47, 7] [] []) t ∧ t.out ≠ [] := ⟨_, rfl, by decide⟩

theorem witness_PushedByteIsFetchedNext :
    Fetches (start 0xFB [0x45, 0] [(0, 1), (7, 0xFE)] []) 0x45 0 0 ∧ Names 0 0 ∧ (0 : RegIndex) ≠ 7 ∧
      ((start 0xFB [0x45, 0] [(0, 1), (7, 0xFE)] []).sp - 1).toNat = (start 0xFB [0x45, 0] [(0, 1), (7, 0xFE)] []).pc.toNat + 2 ∧
      (start 0xFB [0x45, 0] [(0, 1), (7, 0xFE)] []).pc.toNat ≤ 251 := by decide

theorem witness_LoadedStateMeetsInvariant : ∃ s, State.resetWith [0x82, 0, 8] = some s := ⟨_, rfl⟩

/-- A state off every run that meets the invariant: LDI at the last address, `FL` 0x02. -/
theorem witness_StepKeepsInvariant :
    ({ start 0xFD [0x82, 0, 7] [] [] with fl := 0x02 } : State).Inv ∧
      ∃ t, step { start 0xFD [0x82, 0, 7] [] [] with fl := 0x02 } = .next t :=
  ⟨⟨by decide, by decide, by decide, fun _ => by decide, by decide, fun l h => nomatch h⟩, _, rfl⟩

theorem witness_EveryRunFromALoadMeetsInvariant :
    ∃ s t, State.resetWith [0x45, 7] = some s ∧ RunsTo 1 s t := ⟨_, _, rfl, rfl⟩

theorem witness_CleanEndExecutedHltLast :
    (start 0xFD [1] [] []).run = .running ∧ ∃ t, RunsTo 1 (start 0xFD [1] [] []) t ∧ t.run = .halted := ⟨rfl, _, rfl, rfl⟩

theorem witness_SafeRunFetchesOnlyKnownOpcodesInBounds :
    SafeRun 1 (start 0xFD [1] [] []) ∧ EndsCleanly 1 (start 0xFD [1] [] []) ∧
      RunsTo 0 (start 0xFD [1] [] []) (start 0xFD [1] [] []) :=
  ⟨⟨_, rfl, by decide⟩, ⟨_, rfl, rfl⟩, rfl⟩

theorem witness_ExitStatusTellsHaltFromFault : State.reset.halt.exitStatus = some .success := rfl

end Sys2Proof.Tests
end

section
/-! PROOFS of the family 10_state.md: the register file (R21, R22), and that nothing reads `FL` (R33). -/

namespace Sys2Proof.Machine

/-! ### The register file (R21) -/

/-- Settles O20, from the register file's read-after-write lemmas; the frame is the record update itself. -/
theorem registerFileHoldsEightIndependentBytes : Obligations.RegisterFileHoldsEightIndependentBytes :=
  fun s r v => ⟨s.readReg_writeReg_self r v, fun _ h => s.readReg_writeReg_of_ne v h, rfl⟩

/-! ### Register writes modulo 256 (R22) -/

theorem byte_sub_toNat (u v : Byte) : (u - v).toNat = (u.toNat + 256 - v.toNat) % 256 := by
  rw [BitVec.toNat_sub]
  have hv := v.isLt
  omega

/-- The 9-bit sum does not lose the bits the byte keeps. -/
theorem returnAddress_toNat (p : PcWord) : (returnAddress p).toNat = (p.toNat + 2) % 256 := by
  have h2 : (2 : PcWord).toNat = 2 := rfl
  simp only [returnAddress, BitVec.truncate_eq_setWidth, BitVec.toNat_setWidth, BitVec.toNat_add, h2]
  omega

theorem State.writeReg_sp_of_ne (s : State) {r : RegIndex} (v : Byte) (h : r ≠ 7) : (s.writeReg r v).sp = s.sp :=
  s.readReg_writeReg_of_ne v h.symm

/-- Settles O46: each instruction's answer is its `exec_` law, and the written byte's number is that of the byte operation. -/
theorem everyRegisterWriteWrapsModulo256 : Obligations.EveryRegisterWriteWrapsModulo256 := by
  intro s a b ra rb ha hb
  refine ⟨⟨_, exec_add ha hb, ?add⟩, ⟨_, exec_sub ha hb, ?sub⟩, ⟨_, exec_mul ha hb, ?mul⟩, ⟨_, exec_push ha, ?push⟩,
    ⟨_, exec_call ha, ?callSp, ?callLink⟩, fun hsp hne => ⟨_, exec_pop ha hsp, ?pop⟩, fun hsp => ⟨_, exec_ret hsp, ?ret⟩,
    fun r => Nat.le_of_lt_succ (s.readReg r).isLt⟩
  case add => rw [State.readReg_writeReg_self, BitVec.toNat_add]
  case sub => rw [State.readReg_writeReg_self, byte_sub_toNat]
  case mul => rw [State.readReg_writeReg_self, BitVec.toNat_mul]
  case push => rw [State.pushReg_sp, byte_sub_toNat]; rfl
  case callSp => rw [calledState_sp, byte_sub_toNat]; rfl
  case callLink =>
    have hlink : (calledState s ra).readReg 6 = returnAddress s.pc := calledState_readReg 6
    rw [hlink, returnAddress_toNat]
  case pop => rw [State.incSp_sp, State.writeReg_sp_of_ne s _ hne, BitVec.toNat_add]; rfl
  case ret => rw [State.writePc_sp, State.incSp_sp, BitVec.toNat_add]; rfl

/-! ### Two machines in step

A relation between states that agree on what the machine reads (registers, `pc`, memory, run state) and that every update of the state
keeps is kept by every instruction, every step and every run, and the two runs stop alike. -/

/-- Two outcomes of one kind: next states the relation holds between, the same stop, or the same refusal. -/
inductive OutcomesRelated (R : State → State → Prop) :
    Host.Outcome State Fault Refusal → Host.Outcome State Fault Refusal → Prop
  | next {t t' : State} : R t t' → OutcomesRelated R (.next t) (.next t')
  | fault (r : Fault) : OutcomesRelated R (.fault r) (.fault r)
  | refused (r : Refusal) : OutcomesRelated R (.refused r) (.refused r)

namespace OutcomesRelated

variable {R : State → State → Prop} {o : Host.Outcome State Fault Refusal}

theorem of_next {t : State} (h : OutcomesRelated R (.next t) o) : ∃ t', o = .next t' ∧ R t t' := by
  cases h with
  | next h => exact ⟨_, rfl, h⟩

theorem of_fault {r : Fault} (h : OutcomesRelated R (.fault r) o) : o = .fault r := by
  cases h with
  | fault r => rfl

end OutcomesRelated

/-- Related states are read alike, and each update of the state keeps the relation when it is made with the same values on both sides. -/
structure KeptByUpdates (R : State → State → Prop) : Prop where
  regs {s s' : State} : R s s' → s'.regs = s.regs
  pc {s s' : State} : R s s' → s'.pc = s.pc
  mem {s s' : State} : R s s' → s'.mem = s.mem
  run {s s' : State} : R s s' → s'.run = s.run
  writeReg {s s' : State} (r : RegIndex) (v : Byte) : R s s' → R (s.writeReg r v) (s'.writeReg r v)
  storeByte {s s' : State} (a v : Byte) : R s s' → R (s.storeByte a v) (s'.storeByte a v)
  writePc {s s' : State} (p : PcWord) : R s s' → R (s.writePc p) (s'.writePc p)
  writeFlags {s s' : State} (f : BitVec 3) : R s s' → R (s.writeFlags f) (s'.writeFlags f)
  emitOut {s s' : State} (v : Byte) : R s s' → R (s.emitOut v) (s'.emitOut v)
  emitStackEmpty {s s' : State} : R s s' → R s.emitStackEmpty s'.emitStackEmpty
  halt {s s' : State} : R s s' → R s.halt s'.halt
  raise {s s' : State} (f : FatalFault) : R s s' → R (s.raise f) (s'.raise f)

namespace KeptByUpdates

variable {R : State → State → Prop} (hR : KeptByUpdates R) {s s' : State}

include hR

theorem readReg_eq (h : R s s') (r : RegIndex) : s'.readReg r = s.readReg r := by
  rw [State.readReg, State.readReg, hR.regs h]

theorem sp_eq (h : R s s') : s'.sp = s.sp := hR.readReg_eq h Config.spIndex

theorem stackEmpty_eq (h : R s s') : s'.stackEmpty = s.stackEmpty := by
  rw [State.stackEmpty, State.stackEmpty, hR.sp_eq h]

theorem loadByte_eq (h : R s s') (a : Byte) : s'.loadByte a = s.loadByte a := by
  rw [State.loadByte, State.loadByte, hR.mem h]

theorem memRead_eq (h : R s s') (addr : Nat) : s'.memRead addr = s.memRead addr := by
  rw [State.memRead, State.memRead, hR.mem h]

theorem fetch_eq (h : R s s') : s'.fetch = s.fetch := by
  simp only [State.fetch, hR.pc h, hR.memRead_eq h]

theorem incSp_related (h : R s s') : R s.incSp s'.incSp := by
  rw [State.incSp, State.incSp, hR.sp_eq h]
  exact hR.writeReg _ _ h

theorem pushReg_related (h : R s s') (r : RegIndex) : R (s.pushReg r) (s'.pushReg r) := by
  have hw : R (s.writeReg Config.spIndex (s.sp - 1)) (s'.writeReg Config.spIndex (s'.sp - 1)) :=
    hR.sp_eq h ▸ hR.writeReg _ _ h
  simp only [State.pushReg]
  rw [hR.sp_eq hw, hR.readReg_eq hw]
  exact hR.storeByte _ _ hw

theorem calledState_related (h : R s s') (ra : RegIndex) : R (calledState s ra) (calledState s' ra) := by
  have hp := hR.pushReg_related (hR.writeReg Config.linkIndex (returnAddress s.pc) h) Config.linkIndex
  simp only [calledState]
  rw [hR.pc h, hR.readReg_eq hp]
  exact hR.writePc _ hp

/-- A register operand leads both machines to the handler on the same register, or both to the same fault. -/
theorem withReg_related (h : R s s') (b : Byte) {k k' : RegIndex → Host.Outcome State Fault Refusal}
    (hk : ∀ r, OutcomesRelated R (k r) (k' r)) : OutcomesRelated R (withReg b s k) (withReg b s' k') := by
  rcases names_or_bad b with ⟨r, hr⟩ | hb
  · rw [withReg_of_names hr, withReg_of_names hr]
    exact hk r
  · rw [withReg_of_bad hb, withReg_of_bad hb]
    exact .next (hR.raise _ h)

theorem aluRegReg_related (h : R s s') (op : Byte → Byte → Byte) (a b : Byte) :
    OutcomesRelated R (aluRegReg op a b s) (aluRegReg op a b s') :=
  hR.withReg_related h a fun ra => hR.withReg_related h b fun rb => by
    rw [hR.readReg_eq h ra, hR.readReg_eq h rb]
    exact .next (hR.writeReg _ _ h)

theorem execPop_related (h : R s s') (a : Byte) : OutcomesRelated R (execPop a s) (execPop a s') :=
  hR.withReg_related h a fun ra => by
    rw [hR.stackEmpty_eq h, hR.sp_eq h, hR.loadByte_eq h]
    split
    · exact .next (hR.emitStackEmpty h)
    · exact .next (hR.incSp_related (hR.writeReg _ _ h))

theorem execRet_related (h : R s s') : OutcomesRelated R (execRet s) (execRet s') := by
  rw [execRet, execRet, hR.stackEmpty_eq h, hR.sp_eq h, hR.loadByte_eq h]
  split
  · exact .next (hR.raise _ h)
  · exact .next (hR.writePc _ (hR.incSp_related h))

/-- Every instruction keeps the relation. -/
theorem exec_related (h : R s s') (i : Instr) : OutcomesRelated R (exec i s) (exec i s') := by
  cases i with
  | add a b => exact hR.aluRegReg_related h _ a b
  | sub a b => exact hR.aluRegReg_related h _ a b
  | mul a b => exact hR.aluRegReg_related h _ a b
  | cmp a b =>
    refine hR.withReg_related h a fun ra => hR.withReg_related h b fun rb => ?_
    rw [hR.readReg_eq h ra, hR.readReg_eq h rb]
    exact .next (hR.writeFlags _ h)
  | push a => exact hR.withReg_related h a fun ra => .next (hR.pushReg_related h ra)
  | pop a => exact hR.execPop_related h a
  | call a => exact hR.withReg_related h a fun ra => .next (hR.calledState_related h ra)
  | ret => exact hR.execRet_related h
  | jmp a =>
    refine hR.withReg_related h a fun ra => ?_
    rw [hR.readReg_eq h ra]
    exact .next (hR.writePc _ h)
  | ldi a imm => exact hR.withReg_related h a fun ra => .next (hR.writeReg ra imm h)
  | prn a =>
    refine hR.withReg_related h a fun ra => ?_
    rw [hR.readReg_eq h ra]
    exact .next (hR.emitOut _ h)
  | hlt => exact .next (hR.halt h)

theorem afterHandler_related (h : R s s') (ir : Byte) (p : PcWord) : R (s.afterHandler ir p) (s'.afterHandler ir p) := by
  unfold State.afterHandler
  rw [hR.run h]
  split
  · split
    · exact h
    · exact hR.writePc _ h
  · exact h
  · exact h

theorem completeStep_related (ir : Byte) (p : PcWord) {o o' : Host.Outcome State Fault Refusal} (ho : OutcomesRelated R o o') :
    OutcomesRelated R (completeStep ir p o) (completeStep ir p o') := by
  cases ho with
  | next h => exact .next (hR.afterHandler_related h ir p)
  | fault r => exact .fault r
  | refused r => exact .refused r

/-- Every step keeps the relation. -/
theorem step_related (h : R s s') : OutcomesRelated R (step s) (step s') := by
  unfold step
  rw [hR.run h, hR.fetch_eq h, hR.pc h]
  split
  · exact .fault _
  · exact .fault _
  · split
    · exact .next (hR.raise _ h)
    · split
      · exact .next (hR.raise _ h)
      · exact hR.completeStep_related _ _ (hR.exec_related h _)

/-- Every run keeps the relation, and the two runs stop alike. -/
theorem run_related (k : Nat) (h : R s s') : OutcomesRelated R (Sys2Proof.core.run k s) (Sys2Proof.core.run k s') := by
  induction k generalizing s s' with
  | zero => exact .next h
  | succ k ih =>
    have hstep : OutcomesRelated R (Sys2Proof.core.step s) (Sys2Proof.core.step s') := hR.step_related h
    simp only [Host.Core.run]
    generalize Sys2Proof.core.step s = o at hstep ⊢
    generalize Sys2Proof.core.step s' = o' at hstep ⊢
    cases hstep with
    | next hu => exact ih hu
    | fault r => exact .fault r
    | refused r => exact .refused r

end KeptByUpdates

/-! ### Nothing reads `FL` (R33) -/

/-- The two states differ in nothing but the flags byte. -/
def DifferOnlyInFlags (s s' : State) : Prop := ∃ g, s' = { s with fl := g }

/-- Every update leaves the flags byte alone or, as CMP's, replaces it by one that both machines compute alike. -/
theorem differOnlyInFlags_keptByUpdates : KeptByUpdates DifferOnlyInFlags where
  regs := by rintro s _ ⟨g, rfl⟩; rfl
  pc := by rintro s _ ⟨g, rfl⟩; rfl
  mem := by rintro s _ ⟨g, rfl⟩; rfl
  run := by rintro s _ ⟨g, rfl⟩; rfl
  writeReg := by rintro s _ r v ⟨g, rfl⟩; exact ⟨g, rfl⟩
  storeByte := by rintro s _ a v ⟨g, rfl⟩; exact ⟨g, rfl⟩
  writePc := by rintro s _ p ⟨g, rfl⟩; exact ⟨g, rfl⟩
  writeFlags := by rintro s _ f ⟨g, rfl⟩; exact ⟨f.zeroExtend 8, rfl⟩
  emitOut := by rintro s _ v ⟨g, rfl⟩; exact ⟨g, rfl⟩
  emitStackEmpty := by rintro s _ ⟨g, rfl⟩; exact ⟨g, rfl⟩
  halt := by rintro s _ ⟨g, rfl⟩; exact ⟨g, rfl⟩
  raise := by rintro s _ f ⟨g, rfl⟩; exact ⟨g, rfl⟩

/-- Settles O49: the runs of two states that differ only in the flags byte are related outcomes; both halves read that off. -/
theorem flagsAreUnobservable : Obligations.FlagsAreUnobservable := by
  intro k s f
  have hrun : OutcomesRelated DifferOnlyInFlags (Sys2Proof.core.run k s) (Sys2Proof.core.run k { s with fl := f }) :=
    differOnlyInFlags_keptByUpdates.run_related k ⟨f, rfl⟩
  constructor
  · intro t ht
    obtain ⟨_, hrun', g, rfl⟩ := (ht ▸ hrun).of_next
    exact ⟨g, hrun'⟩
  · intro r hr
    exact (hr ▸ hrun).of_fault

end Sys2Proof.Machine
end

section
/-! PROOFS of the family 20_memory.md: what a read gives after a store and after the load (R51). -/

namespace Sys2Proof.Machine

/-! ### Reading after a store -/

@[simp] theorem State.loadByte_storeByte_self (s : State) (a v : Byte) : (s.storeByte a v).loadByte a = v :=
  Memory.read_write_self s.mem a.toNat v

/-- Different byte addresses are different cells, so a store leaves every other address alone. -/
theorem State.loadByte_storeByte_of_ne (s : State) {a a' : Byte} (v : Byte) (h : a' ≠ a) :
    (s.storeByte a v).loadByte a' = s.loadByte a' :=
  Memory.read_write_of_ne s.mem v (BitVec.toNat_ne.mp h)

/-! ### Reading after the load -/

/-- The load port's answer, inverted: the image fits, and the state is the reset state with the image written to its memory (R67, R241). -/
theorem State.resetWith_eq_some_iff {image : List Byte} {base : Byte} {s : State} :
    State.resetWith image base = some s ↔
      base.toNat + image.length ≤ Config.memSize ∧
        s = { State.reset with mem := State.reset.mem.loadImage base.toNat image } := by
  rw [State.resetWith, Option.ite_none_right_eq_some, Option.some_inj, eq_comm (b := s)]

/-- The image's bytes from the load address on, the reset value in every other cell. -/
theorem State.loadByte_of_resetWith {image : List Byte} {base : Byte} {s : State} (h : State.resetWith image base = some s) (a : Byte) :
    s.loadByte a = if base.toNat ≤ a.toNat ∧ a.toNat < base.toNat + image.length
      then image.getD (a.toNat - base.toNat) 0 else State.reset.loadByte a := by
  obtain ⟨-, rfl⟩ := State.resetWith_eq_some_iff.mp h
  exact Memory.read_loadImage State.reset.mem base.toNat image a.toNat

/-- Settles O21, from the read-after-store lemmas and the read-after-load lemma; a store's frame is the record update itself. -/
theorem memoryGivesTheLatestByteWritten : Obligations.MemoryGivesTheLatestByteWritten :=
  ⟨fun s a v => ⟨s.loadByte_storeByte_self a v, fun _ h => s.loadByte_storeByte_of_ne v h, rfl⟩,
    fun _ _ _ h a => State.loadByte_of_resetWith h a⟩

end Sys2Proof.Machine
end

section
/-! PROOFS of the family 30_encoding.md: the bytes of an instruction (R70). -/

namespace Sys2Proof.Machine

open Laws.EncodingShape (opcodeOf)

/-! ### The opcode byte and its operands (R70) -/

/-- The twelve encoding laws as one. -/
theorem encode_eq_opcodeOf_cons_operands (i : Instr) : encode i = opcodeOf i :: i.operands := by
  cases i with
  | add a b => exact Laws.EncodingShape.add a b
  | sub a b => exact Laws.EncodingShape.sub a b
  | mul a b => exact Laws.EncodingShape.mul a b
  | cmp a b => exact Laws.EncodingShape.cmp a b
  | push a => exact Laws.EncodingShape.push a
  | pop a => exact Laws.EncodingShape.pop a
  | call a => exact Laws.EncodingShape.call a
  | ret => exact Laws.EncodingShape.ret
  | jmp a => exact Laws.EncodingShape.jmp a
  | ldi a imm => exact Laws.EncodingShape.ldi a imm
  | prn a => exact Laws.EncodingShape.prn a
  | hlt => exact Laws.EncodingShape.hlt

/-- Bits 7:6 of each opcode byte of R77 count the instruction's operands (R71). -/
theorem operands_length_eq_arity (i : Instr) : i.operands.length = (opcodeArity (opcodeOf i)).toNat := by
  cases i <;> simp [Instr.operands, opcodeOf, opcodeArity]

theorem operands_length_le_two (i : Instr) : i.operands.length ≤ 2 := by
  cases i <;> simp [Instr.operands]

theorem encode_length (i : Instr) : (encode i).length = i.operands.length + 1 := by
  rw [encode_eq_opcodeOf_cons_operands, List.length_cons]

/-- Settles O5: the opcode byte is `opcodeOf i`; the length clause follows from the bound on the operands. -/
theorem encodingIsOpcodeThenArityManyOperands : Obligations.EncodingIsOpcodeThenArityManyOperands := by
  intro i
  have hle := operands_length_le_two i
  have hlen : (encode i).length ∈ [1, 2, 3] := by
    simp only [encode_length, List.mem_cons, List.not_mem_nil, or_false]
    omega
  exact ⟨opcodeOf i, encode_eq_opcodeOf_cons_operands i, operands_length_eq_arity i, hle, hlen⟩

end Sys2Proof.Machine
end

section
/-! PROOFS of the family 41_alu.md: any register may be an operand of the four (R135). -/

namespace Sys2Proof.Machine

/-- What no ALU instruction touches: memory, the streams, the run state, the latches and `pc` (R135). -/
def AluFrame (s t : State) : Prop := t.mem = s.mem ∧ KeepsStreams s t ∧ KeepsStatus s t ∧ t.pc = s.pc

theorem aluFrame_writeReg (s : State) (r : RegIndex) (v : Byte) : AluFrame s (s.writeReg r v) :=
  ⟨s.writeReg_mem r v, ⟨s.writeReg_out r v, s.writeReg_diag r v⟩, ⟨s.writeReg_run r v, s.writeReg_fault r v⟩, s.writeReg_pc r v⟩

theorem aluFrame_writeFlags (s : State) (f : BitVec 3) : AluFrame s (s.writeFlags f) :=
  ⟨s.writeFlags_mem f, ⟨s.writeFlags_out f, s.writeFlags_diag f⟩, ⟨s.writeFlags_run f, s.writeFlags_fault f⟩, s.writeFlags_pc f⟩

/-- Each of the four writes one register or the flags, whatever registers it names. -/
theorem exec_alu_frame {s : State} {a b : Byte} {ra rb : RegIndex} {i : Instr} (ha : Names a ra) (hb : Names b rb)
    (hi : i ∈ [Instr.add a b, .sub a b, .mul a b, .cmp a b]) :
    ∃ t, exec i s = .next t ∧ AluFrame s t := by
  simp only [List.mem_cons, List.not_mem_nil, or_false] at hi
  obtain rfl | rfl | rfl | rfl := hi
  · exact ⟨_, exec_add ha hb, aluFrame_writeReg s _ _⟩
  · exact ⟨_, exec_sub ha hb, aluFrame_writeReg s _ _⟩
  · exact ⟨_, exec_mul ha hb, aluFrame_writeReg s _ _⟩
  · exact ⟨_, exec_cmp ha hb, aluFrame_writeFlags s _⟩

/-- Settles O31: the frame is `exec_alu_frame`; with `a = 7` the written register is the stack pointer, so `SP` reads back the result. -/
theorem aluTreatsSpecialRegistersAsAny : Obligations.AluTreatsSpecialRegistersAsAny := by
  intro s a b ra rb ha hb
  refine ⟨fun i hi => exec_alu_frame ha hb hi, ?movesSp⟩
  rintro rfl
  exact ⟨_, _, _, exec_add ha hb, exec_sub ha hb, exec_mul ha hb, s.writeReg_sp _, s.writeReg_sp _, s.writeReg_sp _⟩

end Sys2Proof.Machine
end

section
/-! PROOFS of the family 42_stack.md: the stack is full and descending (R150). -/

namespace Sys2Proof.Machine

/-! ### PUSH's store and POP's load (R151, R152) -/

/-- A pushed register other than `SP` stands at the new `SP`; `SP` itself has already moved when it is read (D29). -/
theorem State.pushReg_read_newSp_of_ne (s : State) {r : RegIndex} (h : r ≠ 7) :
    (s.pushReg r).mem.read (s.sp - 1).toNat = s.readReg r := by
  rw [State.pushReg_mem, Memory.read_write_self]
  exact s.readReg_writeReg_of_ne _ h

theorem keepsMemory_pushReg (s : State) (r : RegIndex) : KeepsMemory [(s.sp - 1).toNat] s (s.pushReg r) := by
  intro addr haddr
  rw [State.pushReg_mem]
  exact Memory.read_write_of_ne s.mem _ (List.ne_of_not_mem_cons haddr)

/-- The increment that ends a POP touches `SP` only, so any other register keeps the byte it was given. -/
theorem State.readReg_incSp_writeReg_of_ne (s : State) {r : RegIndex} (v : Byte) (h : r ≠ 7) :
    (s.writeReg r v).incSp.readReg r = v := by
  rw [State.incSp_readReg, if_neg h, State.readReg_writeReg_self]

/-! ### Full and descending (R150) -/

/-- The first PUSH after reset writes just below the stack base. -/
theorem State.reset_newSp : (State.reset.sp - 1).toNat = 0xF3 := rfl

/-- Settles O36: PUSH's clauses are `pushReg`'s laws, POP's the two laws of `exec`, and the first PUSH is the general one at the reset `SP`. -/
theorem stackIsFullDescending : Obligations.StackIsFullDescending := by
  refine ⟨fun s a ra ha => ⟨⟨_, exec_push ha, s.pushReg_sp ra, ?pushFrame, ?pushed⟩,
    fun hsp => ⟨_, exec_pop ha hsp, fun hne => ⟨s.readReg_incSp_writeReg_of_ne _ hne, ?popSp⟩⟩,
    fun hsp => ⟨_, exec_pop_empty ha hsp, fun r _ => s.emitStackEmpty_readReg r⟩⟩,
    rfl, fun a ra ha => ⟨_, exec_push ha, ?firstPushed, ?firstFrame⟩⟩
  case pushFrame => rw [State.pushReg_sp]; exact keepsMemory_pushReg s ra
  case pushed => rw [State.pushReg_sp]; exact s.pushReg_read_newSp_of_ne
  case popSp => rw [State.incSp_sp, s.writeReg_sp_of_ne _ hne]
  case firstPushed => rw [← State.reset_newSp]; exact State.reset.pushReg_read_newSp_of_ne
  case firstFrame => rw [← State.reset_newSp]; exact keepsMemory_pushReg State.reset ra

end Sys2Proof.Machine
end

section
/-! PROOFS about the decoder and the encoder: they undo each other, and the whole opcode map (30_encoding.md R70 to R84, R104, R105). -/

namespace Sys2Proof.Machine

open Laws.EncodingShape (opcodeOf)

/-! ### The decoder on each opcode byte (R77) -/

theorem decode_opAdd (a b : Byte) : decode { ir := 0xA0, opa := a, opb := b } = .ok (.add a b) := rfl
theorem decode_opSub (a b : Byte) : decode { ir := 0xA1, opa := a, opb := b } = .ok (.sub a b) := rfl
theorem decode_opMul (a b : Byte) : decode { ir := 0xA2, opa := a, opb := b } = .ok (.mul a b) := rfl
theorem decode_opCmp (a b : Byte) : decode { ir := 0xA7, opa := a, opb := b } = .ok (.cmp a b) := rfl
theorem decode_opPush (a b : Byte) : decode { ir := 0x45, opa := a, opb := b } = .ok (.push a) := rfl
theorem decode_opPop (a b : Byte) : decode { ir := 0x46, opa := a, opb := b } = .ok (.pop a) := rfl
theorem decode_opCall (a b : Byte) : decode { ir := 0x50, opa := a, opb := b } = .ok (.call a) := rfl
theorem decode_opRet (a b : Byte) : decode { ir := 0x11, opa := a, opb := b } = .ok .ret := rfl
theorem decode_opJmp (a b : Byte) : decode { ir := 0x54, opa := a, opb := b } = .ok (.jmp a) := rfl
theorem decode_opLdi (a b : Byte) : decode { ir := 0x82, opa := a, opb := b } = .ok (.ldi a b) := rfl
theorem decode_opPrn (a b : Byte) : decode { ir := 0x47, opa := a, opb := b } = .ok (.prn a) := rfl
theorem decode_opHlt (a b : Byte) : decode { ir := 0x01, opa := a, opb := b } = .ok .hlt := rfl

/-! ### The decoder undoes the encoder (R70) -/

/-- The instruction's own operands first, then what follows it: the operand bytes the fetch unit latches. -/
theorem fetchedOfBytes_encode_append (i : Instr) (rest : List Byte) :
    fetchedOfBytes (encode i ++ rest) =
      { ir := opcodeOf i, opa := (i.operands ++ rest).getD 0 0, opb := (i.operands ++ rest).getD 1 0 } := by
  rw [encode_eq_opcodeOf_cons_operands]
  rfl

/-- Settles O1: each opcode byte decodes to its instruction, on the operand bytes that stand first after it. -/
theorem decodeOfEncodeIsTheInstruction : Obligations.DecodeOfEncodeIsTheInstruction := by
  intro i rest
  rw [fetchedOfBytes_encode_append]
  cases i with
  | add a b => exact decode_opAdd a b
  | sub a b => exact decode_opSub a b
  | mul a b => exact decode_opMul a b
  | cmp a b => exact decode_opCmp a b
  | push a => exact decode_opPush a _
  | pop a => exact decode_opPop a _
  | call a => exact decode_opCall a _
  | ret => exact decode_opRet _ _
  | jmp a => exact decode_opJmp a _
  | ldi a imm => exact decode_opLdi a imm
  | prn a => exact decode_opPrn a _
  | hlt => exact decode_opHlt _ _

/-! ### The encoder gives back the fetched bytes (R84, R107) -/

theorem opcodeOf_of_decode_ok {f : Fetched} {i : Instr} (h : decode f = .ok i) : opcodeOf i = f.ir := by
  have hhead := (opcode_of_decode_ok h).2
  rw [encode_eq_opcodeOf_cons_operands] at hhead
  exact Option.some_inj.mp hhead

/-- The decoder hands over none, one or both of the operand bytes, in order. -/
theorem operands_eq_take_of_decode_ok {f : Fetched} {i : Instr} (h : decode f = .ok i) :
    i.operands = [f.opa, f.opb].take i.operands.length := by
  have hc := decode_cases f
  rw [h] at hc
  cases hc with
  | add | sub | mul | cmp | ldi => rfl
  | push | pop | call | jmp | prn => rfl
  | ret | hlt => rfl

theorem operands_length_of_decode_ok {f : Fetched} {i : Instr} (h : decode f = .ok i) :
    i.operands.length = (opcodeArity f.ir).toNat :=
  opcodeOf_of_decode_ok h ▸ operands_length_eq_arity i

/-- Settles O2: the operands are the first of the two fetched bytes, as many as the arity says. -/
theorem encodeOfDecodeIsTheFetchedBytes : Obligations.EncodeOfDecodeIsTheFetchedBytes := by
  intro f i h
  have hops : i.operands = [f.opa, f.opb].take (opcodeArity f.ir).toNat := by
    rw [← operands_length_of_decode_ok h]
    exact operands_eq_take_of_decode_ok h
  rw [encode_eq_opcodeOf_cons_operands, opcodeOf_of_decode_ok h, hops, List.take_succ_cons]

/-! ### Exactly twelve bytes are opcodes (R78, R80) -/

theorem decode_eq_error_of_not_mem {f : Fetched} (h : f.ir ∉ opcodes) : decode f = .error (.unknownOpcode f.ir) := by
  cases hd : decode f with
  | ok i => exact absurd (opcode_of_decode_ok hd).1 h
  | error e => rw [(opcode_of_decode_error hd).2]

theorem exists_decode_ok_iff_mem_opcodes (f : Fetched) : (∃ i, decode f = .ok i) ↔ f.ir ∈ opcodes := by
  refine ⟨fun ⟨i, hi⟩ => (opcode_of_decode_ok hi).1, fun h => ?_⟩
  cases hd : decode f with
  | ok i => exact ⟨i, rfl⟩
  | error e => exact absurd h (opcode_of_decode_error hd).1

/-- Settles O3: the twelve rows are the laws of the decoder above; what is not accepted is none of the twelve bytes. -/
theorem decoderAcceptsExactlyTwelveOpcodes : Obligations.DecoderAcceptsExactlyTwelveOpcodes := by
  refine ⟨fun a b => ⟨decode_opAdd a b, decode_opSub a b, decode_opMul a b, decode_opCmp a b, decode_opPush a b, decode_opPop a b,
    decode_opCall a b, decode_opRet a b, decode_opJmp a b, decode_opLdi a b, decode_opPrn a b, decode_opHlt a b⟩,
    fun f => ⟨exists_decode_ok_iff_mem_opcodes f, fun hno => ?rejected⟩⟩
  case rejected => exact decode_eq_error_of_not_mem fun hmem => hno ((exists_decode_ok_iff_mem_opcodes f).mpr hmem)

/-! ### The fields of the opcode byte (R104, R105) -/

theorem opcodeArity_toNat (ir : Byte) : (opcodeArity ir).toNat = ir.toNat / 64 := by
  have hir := ir.isLt
  rw [opcodeArity, BitVec.extractLsb'_toNat, Nat.shiftRight_eq_div_pow]
  omega

theorem opcodeSetsPc_iff_bit (ir : Byte) : opcodeSetsPc ir = true ↔ ir.toNat / 16 % 2 = 1 := by
  rw [opcodeSetsPc, BitVec.getLsbD, Nat.testBit_eq_decide_div_mod_eq, decide_eq_true_iff]

/-- Settles O4: the two fields are a quotient and a bit of the opcode's number. -/
theorem opcodeFieldsAreTopBitsAndBitFour : Obligations.OpcodeFieldsAreTopBitsAndBitFour :=
  fun ir => ⟨opcodeArity_toNat ir, Nat.le_of_lt_succ (opcodeArity ir).isLt, opcodeSetsPc_iff_bit ir⟩

/-- Settles O6: the decoder is run on the fifteen words. -/
theorem sampleWordsDecode : Obligations.SampleWordsDecode := by
  unfold Obligations.SampleWordsDecode
  decide

end Sys2Proof.Machine
end

section
/-! PROOFS about the streams: they only grow, and nothing reads them (10_state.md R41). -/

namespace Sys2Proof.Machine

/-- The two states have appended the same bytes and records, the first to `o` and `d`, the second to `o'` and `d'`, and differ in
nothing else. -/
def AppendedAlike (o o' : List Byte) (d d' : List Warning) (s s' : State) : Prop :=
  ∃ newOut newDiag, s.out = o ++ newOut ∧ s.diag = d ++ newDiag ∧ s' = { s with out := o' ++ newOut, diag := d' ++ newDiag }

/-- Every update leaves the streams alone but the two that emit, and these append the same to both. -/
theorem appendedAlike_keptByUpdates (o o' : List Byte) (d d' : List Warning) : KeptByUpdates (AppendedAlike o o' d d') where
  regs := by rintro s _ ⟨n, m, -, -, rfl⟩; rfl
  pc := by rintro s _ ⟨n, m, -, -, rfl⟩; rfl
  mem := by rintro s _ ⟨n, m, -, -, rfl⟩; rfl
  run := by rintro s _ ⟨n, m, -, -, rfl⟩; rfl
  writeReg := by rintro s _ r v ⟨n, m, hn, hm, rfl⟩; exact ⟨n, m, hn, hm, rfl⟩
  storeByte := by rintro s _ a v ⟨n, m, hn, hm, rfl⟩; exact ⟨n, m, hn, hm, rfl⟩
  writePc := by rintro s _ p ⟨n, m, hn, hm, rfl⟩; exact ⟨n, m, hn, hm, rfl⟩
  writeFlags := by rintro s _ f ⟨n, m, hn, hm, rfl⟩; exact ⟨n, m, hn, hm, rfl⟩
  emitOut := by
    rintro s _ v ⟨n, m, hn, hm, rfl⟩
    exact ⟨n ++ [v], m, by simp [hn], hm, by simp [State.emitOut]⟩
  emitStackEmpty := by
    rintro s _ ⟨n, m, hn, hm, rfl⟩
    exact ⟨n, m ++ [{ kind := .stackEmpty, pc := s.pc }], hn, by simp [hm], by simp [State.emitStackEmpty]⟩
  halt := by rintro s _ ⟨n, m, hn, hm, rfl⟩; exact ⟨n, m, hn, hm, rfl⟩
  raise := by rintro s _ f ⟨n, m, hn, hm, rfl⟩; exact ⟨n, m, hn, hm, rfl⟩

/-- A run, and the run from the same state with other streams, append the same to them. -/
theorem run_appendedAlike {k : Nat} {s t : State} (h : RunsTo k s t) (o : List Byte) (d : List Warning) :
    ∃ t', RunsTo k { s with out := o, diag := d } t' ∧ AppendedAlike s.out o s.diag d t t' := by
  have hstart : AppendedAlike s.out o s.diag d s { s with out := o, diag := d } := ⟨[], [], by simp⟩
  have hrun := (appendedAlike_keptByUpdates s.out o s.diag d).run_related k hstart
  exact (h ▸ hrun).of_next

/-- Settles O50: what a run appends can be read off the run itself, so it is the same beside every other run. -/
theorem streamsOnlyGrowAndAreNeverRead : Obligations.StreamsOnlyGrowAndAreNeverRead := by
  intro k s t h
  obtain ⟨-, -, newOut, newDiag, hout, hdiag, -⟩ := run_appendedAlike h s.out s.diag
  refine ⟨newOut, newDiag, hout, hdiag, fun o d => ?otherStreams⟩
  obtain ⟨t', hrun, n, m, hn, hm, rfl⟩ := run_appendedAlike h o d
  have hn : newOut = n := List.append_cancel_left (hout.symm.trans hn)
  have hm : newDiag = m := List.append_cancel_left (hdiag.symm.trans hm)
  rw [hn, hm]
  exact hrun

end Sys2Proof.Machine
end

section
/-! PROOFS about the step and its faults (40_dispatch_loop.md, 60_exceptions.md): what each step answers, where it leaves `pc`, and how it can end. -/

namespace Sys2Proof.Machine

open Laws.EncodingShape (opcodeOf)

variable {s t u : State} {i : Instr} {ir opa opb : Byte}

/-! ### What the step answers, by what the fetch finds (R113) -/

theorem fetch_of_fetches (h : Fetches s ir opa opb) : s.fetch = .ok { ir := ir, opa := opa, opb := opb } := by
  obtain ⟨-, hpc, hir, hopa, hopb⟩ := h
  rw [fetch_of_le hpc, hir, hopa, hopb]

theorem step_of_fetch_error {f : FatalFault} (hr : s.run = .running) (h : s.fetch = .error f) : step s = .next (s.raise f) := by
  simp only [step, hr, h, takeFault]

theorem step_of_decode_error {b : Byte} (hf : Fetches s ir opa opb)
    (h : decode { ir := ir, opa := opa, opb := opb } = .error (.unknownOpcode b)) : step s = .next (s.raise (.unknownOpcode b)) := by
  simp only [step, hf.1, fetch_of_fetches hf, h, takeFault, faultOfDecodeError]

theorem step_of_decode_ok (hf : Fetches s ir opa opb) (h : decode { ir := ir, opa := opa, opb := opb } = .ok i) :
    step s = completeStep ir s.pc (exec i s) := by
  simp only [step, hf.1, fetch_of_fetches hf, h]

theorem step_of_exec (hf : Fetches s ir opa opb) (h : decode { ir := ir, opa := opa, opb := opb } = .ok i)
    (he : exec i s = .next t) : step s = .next (t.afterHandler ir s.pc) := by
  rw [step_of_decode_ok hf h, he, completeStep]

/-- Settles O7: the two checks of the step, fetch and decode, both succeed. -/
theorem stepRunsTheDecodedInstruction : Obligations.StepRunsTheDecodedInstruction :=
  fun _ _ _ _ _ hf h => step_of_decode_ok hf h

/-- Settles O11: the fetch faults, or the decoder rejects, or the handler answers one of its effects. -/
theorem runningStepAlwaysAnswersAState : Obligations.RunningStepAlwaysAnswersAState := by
  intro s hr
  by_cases hpc : s.pc.toNat ≤ 253
  · have hf : Fetches s _ _ _ := ⟨hr, hpc, rfl, rfl, rfl⟩
    cases hd : decode ⟨s.mem.read s.pc.toNat, s.mem.read (s.pc.toNat + 1), s.mem.read (s.pc.toNat + 2)⟩ with
    | error e => exact ⟨_, step_of_decode_error hf hd⟩
    | ok i =>
      obtain ⟨t, he, -⟩ := exec_effect i s
      exact ⟨_, step_of_exec hf hd he⟩
  · exact ⟨_, step_of_fetch_error hr (fetch_of_gt (Nat.not_le.mp hpc))⟩

/-- Settles O12: the step looks at the run state first. -/
theorem terminalStatesHaveNoStep : Obligations.TerminalStatesHaveNoStep :=
  fun s => ⟨fun h => by simp only [step, h], fun h => by simp only [step, h]⟩

/-! ### The four fatal faults (60_exceptions.md R201 to R204) -/

/-- Settles O13: above 253 the first address outside memory is 256. -/
theorem fetchAbove253FaultsOutOfBounds : Obligations.FetchAbove253FaultsOutOfBounds := by
  intro s hr hlo hhi
  rw [step_of_fetch_error hr (fetch_of_gt hlo), Nat.max_eq_right hhi]
  rfl

/-- Settles O14: the decoder rejects the byte, and the latch holds it zero-extended. -/
theorem unknownOpcodeFaultsWithItsByte : Obligations.UnknownOpcodeFaultsWithItsByte := by
  intro s ir opa opb hf hno
  rw [step_of_decode_error hf (decode_eq_error_of_not_mem hno), raise_eq_faultedWith, ← zeroExtend9_eq_ofNat]
  rfl

theorem raise_registerIndexOutOfBounds (s : State) (b : Byte) :
    s.raise (.registerIndexOutOfBounds b) = FaultedWith s 3 (BitVec.ofNat 9 b.toNat) := by
  rw [raise_eq_faultedWith, ← zeroExtend9_eq_ofNat]
  rfl

/-- Settles O15: each of the ten begins by looking up its first operand. -/
theorem firstOperandAbove7Faults : Obligations.FirstOperandAbove7Faults := by
  intro s a b ha i hi
  rw [← raise_registerIndexOutOfBounds]
  simp only [List.mem_cons, List.not_mem_nil, or_false] at hi
  obtain rfl | rfl | rfl | rfl | rfl | rfl | rfl | rfl | rfl | rfl := hi <;> exact withReg_of_bad ha

/-- Settles O16: the first operand is looked up, and then the second. -/
theorem secondOperandAbove7Faults : Obligations.SecondOperandAbove7Faults := by
  intro s a b ha hb i hi
  have hra : Names a ⟨a.toNat, ha⟩ := rfl
  rw [← raise_registerIndexOutOfBounds]
  simp only [List.mem_cons, List.not_mem_nil, or_false] at hi
  obtain rfl | rfl | rfl | rfl := hi <;> exact (withReg_of_names hra).trans (withReg_of_bad hb)

/-- Settles O17: the latch holds `SP` zero-extended. -/
theorem retOnEmptyStackFaults : Obligations.RetOnEmptyStackFaults := by
  intro s h
  rw [exec_ret_empty h, raise_eq_faultedWith, ← zeroExtend9_eq_ofNat]
  rfl

/-! ### Which instructions write `pc` themselves (R105, R108) -/

/-- CALL, RET and JMP. -/
def IsTransfer (i : Instr) : Prop := (∃ a, i = .call a) ∨ i = .ret ∨ ∃ a, i = .jmp a

/-- Bit 4 of each opcode byte of R77. -/
theorem opcodeSetsPc_opcodeOf_iff (i : Instr) : opcodeSetsPc (opcodeOf i) = true ↔ IsTransfer i := by
  cases i <;> simp [opcodeOf, opcodeSetsPc, IsTransfer]

theorem opcodeSetsPc_iff_isTransfer (h : decode { ir := ir, opa := opa, opb := opb } = .ok i) :
    opcodeSetsPc ir = true ↔ IsTransfer i := by
  have hir : opcodeOf i = ir := opcodeOf_of_decode_ok h
  rw [← hir, opcodeSetsPc_opcodeOf_iff]

/-- The other nine handlers leave `pc` to the loop. -/
theorem Effect.pc_eq (h : Effect s i t) (hi : ¬ IsTransfer i) : t.pc = s.pc := by
  cases h with
  | call => exact absurd (.inl ⟨_, rfl⟩) hi
  | ret => exact absurd (.inr (.inl rfl)) hi
  | jmp => exact absurd (.inr (.inr ⟨_, rfl⟩)) hi
  | badIndex | add | sub | mul | cmp | push | pop | popEmpty | retEmpty | ldi | prn | hlt => rfl

/-- Settles O8: without the bit the loop writes `p + n + 1`, which does not wrap at 0 to 253; with it the loop writes nothing. -/
theorem loopAdvancesPcUnlessHandlerSetsIt : Obligations.LoopAdvancesPcUnlessHandlerSetsIt := by
  intro s ir opa opb i t hf hd he
  have hstep := step_of_exec hf hd he
  refine ⟨fun hr hbit => ⟨?keepsPc, sequentialPc ir s.pc, sequentialPc_toNat ir hf.2.1, ?advances⟩, fun _ hbit => ?sets,
    opcodeSetsPc_iff_isTransfer hd⟩
  case keepsPc =>
    refine (effect_of_exec he).pc_eq fun hi => ?_
    rw [(opcodeSetsPc_iff_isTransfer hd).mpr hi] at hbit
    cases hbit
  case advances => rw [hstep, afterHandler_advance hr hbit]; rfl
  case sets => rw [hstep, afterHandler_setsPc hbit]

/-! ### How a handler and a step can end (R100, R109) -/

/-- What a fatal fault of the machine records is in its cause's range (R206). -/
def FatalFault.InRange : FatalFault → Prop
  | .unknownOpcode _ => True
  | .memoryOutOfBounds addr => addr = 256
  | .registerIndexOutOfBounds index => 8 ≤ index.toNat
  | .stackUnderflow sp => 0xF4 ≤ sp.toNat

theorem zeroExtend9_toNat (b : Byte) : (b.zeroExtend 9).toNat = b.toNat := zext9_toNat b

/-- Then the latches it leaves are legal (10_state.md R35). -/
theorem FatalFault.InRange.legal {f : FatalFault} (h : f.InRange) (p : PcWord) :
    FaultLatches.legal { faultCause := f.code, faultPc := p, faultInfo := f.info } := by
  cases f with
  | unknownOpcode b => exact .inl ⟨rfl, (zeroExtend9_toNat b).symm ▸ b.isLt⟩
  | memoryOutOfBounds addr =>
    obtain rfl : addr = 256 := h
    exact .inr (.inl ⟨rfl, rfl⟩)
  | registerIndexOutOfBounds b => exact .inr (.inr (.inl ⟨rfl, (zeroExtend9_toNat b).symm ▸ ⟨h, b.isLt⟩⟩))
  | stackUnderflow b => exact .inr (.inr (.inr ⟨rfl, (zeroExtend9_toNat b).symm ▸ ⟨h, b.isLt⟩⟩))

/-- A handler goes on and leaves the latches alone, or it is HLT's, or it takes a fatal fault. -/
theorem Effect.run_cases (h : Effect s i t) :
    (t.run = s.run ∧ t.fault = s.fault) ∨ (i = .hlt ∧ t = s.halt) ∨ ∃ f : FatalFault, f.InRange ∧ t = s.raise f := by
  cases h with
  | add | sub | mul | cmp | push | pop | popEmpty | call | ret | jmp | ldi | prn => exact .inl ⟨rfl, rfl⟩
  | hlt => exact .inr (.inl ⟨rfl, rfl⟩)
  | badIndex _ hb => exact .inr (.inr ⟨.registerIndexOutOfBounds _, hb, rfl⟩)
  | retEmpty hsp => exact .inr (.inr ⟨.stackUnderflow _, hsp, rfl⟩)

/-- Settles O9: a handler that stops is HLT's or took a fault, and neither writes `pc`. -/
theorem haltOrFaultHoldsPc : Obligations.HaltOrFaultHoldsPc := by
  intro s ir opa opb i t hf hd he hstop
  refine ⟨by rw [step_of_exec hf hd he, afterHandler_stopped hstop], ?_⟩
  obtain ⟨hrun, -⟩ | ⟨-, rfl⟩ | ⟨f, -, rfl⟩ := (effect_of_exec he).run_cases
  · exact absurd (hrun.trans hf.1) hstop
  · exact s.halt_pc
  · exact s.raise_pc f

theorem afterHandler_run (ir : Byte) (p : PcWord) (t : State) : (t.afterHandler ir p).run = t.run := by
  obtain h | ⟨-, h⟩ := afterHandler_cases ir p t
  · rw [h]
  · rw [h, State.writePc_run]

/-- The three ways a step ends: in a fatal fault, in a halt, or with the machine running. The bound on `pc` is the invariant's; above
it the fetch would report `pc` itself. -/
inductive StepEnd (s : State) : State → Prop
  | faults {f : FatalFault} : (s.pc.toNat ≤ 256 → f.InRange) → StepEnd s (s.raise f)
  | halts : s.pc.toNat ≤ 253 → s.mem.read s.pc.toNat = opHlt → StepEnd s s.halt
  | goesOn {ir opa opb : Byte} {i : Instr} {u : State} : Fetches s ir opa opb →
      decode { ir := ir, opa := opa, opb := opb } = .ok i → Effect s i u → u.run = .running → u.fault = s.fault →
      StepEnd s (u.afterHandler ir s.pc)

/-- HLT is decoded from its opcode byte only. -/
theorem ir_eq_opHlt_of_decode (h : decode { ir := ir, opa := opa, opb := opb } = .ok .hlt) : ir = opHlt :=
  (opcodeOf_of_decode_ok h).symm

theorem stepEnd_of_step (h : step s = .next t) : StepEnd s t := by
  obtain ⟨hr, ⟨-, rfl⟩ | ⟨f, hpc, hf, ⟨b, -, rfl⟩ | ⟨i, u, hd, he, rfl⟩⟩⟩ := step_cases h
  · exact .faults fun hle => Nat.max_eq_right hle
  · exact .faults fun _ => trivial
  · obtain ⟨hrun, hfault⟩ | ⟨rfl, rfl⟩ | ⟨g, hg, rfl⟩ := (effect_of_exec he).run_cases
    · exact .goesOn hf hd (effect_of_exec he) (hrun.trans hr) hfault
    · rw [afterHandler_stopped (by rw [State.halt_run]; decide)]
      exact .halts hpc (hf.2.2.1.trans (ir_eq_opHlt_of_decode hd))
    · rw [afterHandler_stopped (by rw [State.raise_run]; decide)]
      exact .faults fun _ => hg

/-- Settles O18: of the three ends of a step only the fault leaves the machine faulted. -/
theorem faultingStepIsPrecise : Obligations.FaultingStepIsPrecise := by
  intro s t hpc hstep hrun
  cases stepEnd_of_step hstep with
  | faults hf => exact ⟨_, _, raise_eq_faultedWith s _, (hf hpc).legal s.pc⟩
  | halts => rw [State.halt_run] at hrun; cases hrun
  | goesOn _ _ _ hu => rw [afterHandler_run, hu] at hrun; cases hrun

/-- A step that halts fetched HLT's byte and changed `run` only. -/
theorem halting_step (hstep : step s = .next t) (hrun : t.run = .halted) :
    s.pc.toNat ≤ 253 ∧ s.mem.read s.pc.toNat = 0x01 ∧ t = { s with run := .halted } := by
  cases stepEnd_of_step hstep with
  | faults => rw [State.raise_run] at hrun; cases hrun
  | halts hpc hir => exact ⟨hpc, hir, rfl⟩
  | goesOn _ _ _ hu => rw [afterHandler_run, hu] at hrun; cases hrun

/-- Settles O19: one direction and the frame are `halting_step`; in the other the byte decodes to HLT. -/
theorem stepHaltsExactlyOnHlt : Obligations.StepHaltsExactlyOnHlt := by
  intro s hr
  refine ⟨⟨fun ⟨t, hstep, hrun⟩ => ?halted, fun ⟨hpc, hir⟩ => ⟨s.halt, ?halts, s.halt_run⟩⟩,
    fun t hstep hrun => (halting_step hstep hrun).2.2⟩
  case halted =>
    obtain ⟨hpc, hir, -⟩ := halting_step hstep hrun
    exact ⟨hpc, hir⟩
  case halts =>
    have hf : Fetches s 0x01 _ _ := ⟨hr, hpc, hir, rfl, rfl⟩
    rw [step_of_exec hf (decode_opHlt _ _) rfl, afterHandler_stopped (by rw [State.halt_run]; decide)]

/-! ### Where each opcode leaves `pc` (10_state.md R29) -/

theorem fields_of_threeByte_opcode :
    ∀ ir ∈ ([0xA0, 0xA1, 0xA2, 0xA7, 0x82] : List Byte), opcodeSetsPc ir = false ∧ (opcodeArity ir).toNat = 2 := by
  decide

theorem fields_of_twoByte_opcode :
    ∀ ir ∈ ([0x45, 0x46, 0x47] : List Byte), opcodeSetsPc ir = false ∧ (opcodeArity ir).toNat = 1 := by
  decide

/-- While the run goes on and the opcode has bit 4 clear, `pc` moves past the instruction. -/
theorem pc_of_sequential_step (hf : Fetches s ir opa opb) (hstep : step s = .next t) (hrun : t.run = .running)
    (hbit : opcodeSetsPc ir = false) : t.pc.toNat = s.pc.toNat + (opcodeArity ir).toNat + 1 := by
  obtain ⟨hr, hpc, hir, -, -⟩ := hf
  cases stepEnd_of_step hstep with
  | faults => rw [State.raise_run] at hrun; cases hrun
  | halts => rw [State.halt_run] at hrun; cases hrun
  | goesOn hf' _ _ hu =>
    obtain rfl := hf'.2.2.1.symm.trans hir
    rw [afterHandler_advance hu hbit, State.writePc_pc, sequentialPc_toNat _ hpc]

/-- A transfer's step is its handler's answer. -/
theorem step_of_transfer (hf : Fetches s ir opa opb) (hd : decode { ir := ir, opa := opa, opb := opb } = .ok i)
    (he : exec i s = .next t) (hi : IsTransfer i) : step s = .next t := by
  rw [step_of_exec hf hd he, afterHandler_setsPc ((opcodeSetsPc_iff_isTransfer hd).mpr hi)]

/-- Settles O10: eight opcodes are sequential with two or one operands; the other three transfer, and RET does so only on a stack not
empty. -/
theorem pcAfterEachOpcode : Obligations.PcAfterEachOpcode := by
  intro s ir opa opb t hf hstep hrun
  refine ⟨fun hir => ?three, fun hir => ?two, ?call, ?jmp, ?ret⟩
  case three =>
    obtain ⟨hbit, hlen⟩ := fields_of_threeByte_opcode ir hir
    rw [pc_of_sequential_step hf hstep hrun hbit, hlen]
  case two =>
    obtain ⟨hbit, hlen⟩ := fields_of_twoByte_opcode ir hir
    rw [pc_of_sequential_step hf hstep hrun hbit, hlen]
  case call =>
    rintro rfl r hr
    rw [step_of_transfer hf (decode_opCall _ _) (exec_call hr) (.inl ⟨_, rfl⟩)] at hstep
    obtain rfl := Host.Outcome.next.inj hstep
    rw [calledState_pc, zext9_toNat]
  case jmp =>
    rintro rfl r hr
    rw [step_of_transfer hf (decode_opJmp _ _) (exec_jmp hr) (.inr (.inr ⟨_, rfl⟩))] at hstep
    obtain rfl := Host.Outcome.next.inj hstep
    rw [State.writePc_pc, zext9_toNat]
  case ret =>
    rintro rfl
    by_cases hsp : s.sp.toNat < 0xF4
    · rw [step_of_transfer hf (decode_opRet _ _) (exec_ret hsp) (.inr (.inl rfl))] at hstep
      obtain rfl := Host.Outcome.next.inj hstep
      rw [State.writePc_pc, zext9_toNat, State.loadByte]
    · rw [step_of_transfer hf (decode_opRet _ _) (exec_ret_empty (Nat.not_lt.mp hsp)) (.inr (.inl rfl))] at hstep
      obtain rfl := Host.Outcome.next.inj hstep
      cases hrun

end Sys2Proof.Machine
end

section
/-! PROOFS about memory, reset and the load port (10_state.md R39, R43, 20_memory.md R67, 70_reset_and_hazards.md R241, R242). -/

namespace Sys2Proof.Machine

namespace Memory

variable {m m' : Memory} {k k' : Nat} {v v' : Byte}

/-! ### Canonical memories (10_state.md R39) -/

theorem read_cons_self (m : Memory) (k : Nat) (v : Byte) : Memory.read ((k, v) :: m) k = v := if_pos rfl

theorem read_cons_of_ne (m : Memory) (v : Byte) {a : Nat} (h : k ≠ a) : Memory.read ((k, v) :: m) a = Memory.read m a := if_neg h

theorem wf_of_wf_cons (h : Memory.wf ((k, v) :: m)) : Memory.wf m :=
  ⟨(List.pairwise_cons.mp h.1).2, fun c hc => h.2 c (List.mem_cons_of_mem _ hc)⟩

theorem ne_unlisted_of_wf_cons (h : Memory.wf ((k, v) :: m)) : v ≠ Config.unlistedByte := (h.2 (k, v) List.mem_cons_self).2

/-- Every entry after the first has a higher address, so the rest lists nothing up to it. -/
theorem read_tail_of_le (h : Memory.wf ((k, v) :: m)) {a : Nat} (ha : a ≤ k) : Memory.read m a = Config.unlistedByte :=
  read_of_not_listed fun c hc => (lt_of_le_of_lt ha ((List.pairwise_cons.mp h.1).1 c hc)).ne'

/-- The first address of a canonical memory is the lowest at which it reads as something written; so another that reads alike does not
begin above it. -/
theorem first_le_of_read_eq (h : Memory.wf ((k, v) :: m)) (h' : Memory.wf ((k', v') :: m'))
    (hread : ∀ a, Memory.read ((k, v) :: m) a = Memory.read ((k', v') :: m') a) : k' ≤ k := by
  by_contra hlt
  have hlt : k < k' := Nat.not_le.mp hlt
  have hv := hread k
  rw [read_cons_self, read_cons_of_ne m' v' hlt.ne', read_tail_of_le h' hlt.le] at hv
  exact ne_unlisted_of_wf_cons h hv

theorem eq_nil_of_read_unlisted (h : Memory.wf m) (hread : ∀ a, Memory.read m a = Config.unlistedByte) : m = [] := by
  cases m with
  | nil => rfl
  | cons c m =>
    obtain ⟨k, v⟩ := c
    have hv := hread k
    rw [read_cons_self] at hv
    exact absurd hv (ne_unlisted_of_wf_cons h)

/-- Memories that read alike with one first address agree on its byte and read alike in the rest. -/
theorem read_tail_eq_of_read_eq (h : Memory.wf ((k, v) :: m)) (h' : Memory.wf ((k, v') :: m'))
    (hread : ∀ a, Memory.read ((k, v) :: m) a = Memory.read ((k, v') :: m') a) (a : Nat) : Memory.read m a = Memory.read m' a := by
  by_cases ha : a = k
  · rw [read_tail_of_le h ha.le, read_tail_of_le h' ha.le]
  · have hrest := hread a
    rwa [read_cons_of_ne m v (Ne.symm ha), read_cons_of_ne m' v' (Ne.symm ha)] at hrest

end Memory

/-- Settles O22, by induction on the first list: two nonempty memories begin with the same cell, and their rests read alike. -/
theorem canonicalMemoriesThatReadAlikeAreEqual : Obligations.CanonicalMemoriesThatReadAlikeAreEqual := by
  intro m
  induction m with
  | nil => exact fun m' _ h' hread => (Memory.eq_nil_of_read_unlisted h' fun a => (hread a).symm).symm
  | cons c m ih =>
    intro m' h h' hread
    cases m' with
    | nil => exact Memory.eq_nil_of_read_unlisted h hread
    | cons c' m' =>
      obtain ⟨k, v⟩ := c
      obtain ⟨k', v'⟩ := c'
      obtain rfl : k = k' :=
        le_antisymm (Memory.first_le_of_read_eq h' h fun a => (hread a).symm) (Memory.first_le_of_read_eq h h' hread)
      have hv : v = v' := by simpa only [Memory.read_cons_self] using hread k
      have hm : m = m' :=
        ih m' (Memory.wf_of_wf_cons h) (Memory.wf_of_wf_cons h') (Memory.read_tail_eq_of_read_eq h h' hread)
      rw [hv, hm]

/-! ### Reset and the load (R43, R67, R241) -/

theorem reset_readReg_of_ne_sp : ∀ r : RegIndex, r ≠ 7 → State.reset.readReg r = 0x00 := by decide

/-- Settles O23: each field of the reset state as it is defined. -/
theorem resetValues : Obligations.ResetValues :=
  ⟨rfl, rfl, rfl, reset_readReg_of_ne_sp, rfl, fun _ => rfl, rfl, rfl, rfl⟩

/-- Settles O24: the port's one test is the bound on the last address. -/
theorem loadPortAcceptsExactlyImagesThatFit : Obligations.LoadPortAcceptsExactlyImagesThatFit :=
  fun _ _ => ⟨fun hfit => ⟨_, State.resetWith_eq_some_iff.mpr ⟨hfit, rfl⟩, rfl⟩, fun hlarge => if_neg (Nat.not_le.mpr hlarge)⟩

section Loaded

variable {image : List Byte} {base : Byte} {s : State}

theorem run_of_resetWith (h : State.resetWith image base = some s) : s.run = .running := by
  obtain ⟨-, rfl⟩ := State.resetWith_eq_some_iff.mp h
  rfl

/-- The load does not move `pc` (R242). -/
theorem pc_of_resetWith (h : State.resetWith image base = some s) : s.pc.toNat = 0 := by
  obtain ⟨-, rfl⟩ := State.resetWith_eq_some_iff.mp h
  rfl

theorem read_of_resetWith (h : State.resetWith image base = some s) (a : Nat) :
    s.mem.read a = if base.toNat ≤ a ∧ a < base.toNat + image.length then image.getD (a - base.toNat) 0 else 0 := by
  obtain ⟨-, rfl⟩ := State.resetWith_eq_some_iff.mp h
  exact Memory.read_loadImage State.reset.mem base.toNat image a

/-- From address 0 on the image is memory, and past its end both are zero. -/
theorem read_of_resetWith_default (h : State.resetWith image = some s) (a : Nat) : s.mem.read a = image.getD a 0 := by
  have h0 : (0 : Byte).toNat = 0 := rfl
  rw [read_of_resetWith h, h0, Nat.zero_add, Nat.sub_zero]
  split
  · rfl
  · next hend => exact (List.getD_eq_default _ _ (by omega)).symm

theorem read_zero_of_resetWith_above (h : State.resetWith image base = some s) (hbase : 0 < base.toNat) : s.mem.read 0 = 0 := by
  rw [read_of_resetWith h, if_neg fun hin => absurd hin.1 (Nat.not_le.mpr hbase)]

end Loaded

/-- Settles O25: `pc` is 0 after the load, where the image's first byte is or, with another load address, the byte 0x00. -/
theorem firstFetchIsAtAddressZero : Obligations.FirstFetchIsAtAddressZero := by
  refine ⟨fun ir image s h => ?first, fun image base s h hbase => ?unknown⟩
  case first =>
    have hpc := pc_of_resetWith h
    refine ⟨run_of_resetWith h, by omega, ?_, ?_, ?_⟩ <;> rw [hpc, read_of_resetWith_default h] <;> rfl
  case unknown =>
    have hpc := pc_of_resetWith h
    have hf : Fetches s 0 _ _ :=
      ⟨run_of_resetWith h, by omega, by rw [hpc, read_zero_of_resetWith_above h hbase], rfl, rfl⟩
    exact unknownOpcodeFaultsWithItsByte s 0 _ _ hf (by decide)

end Sys2Proof.Machine
end

section
/-! PROOFS about the twelve instructions on operands that name registers (41_alu.md, 42_stack.md, 43_control_flow.md, 44_other.md). -/

namespace Sys2Proof.Machine

variable {s : State} {ra : RegIndex}

/-! ### Frames of the shared operations -/

theorem KeepsMemory.of_mem_eq {t : State} (h : t.mem = s.mem) (addrs : List Nat) : KeepsMemory addrs s t :=
  fun a _ => congrArg (Memory.read · a) h

theorem keepsRegs_writeReg (s : State) (r : RegIndex) (v : Byte) : KeepsRegs [r] s (s.writeReg r v) :=
  fun _ hr => s.readReg_writeReg_of_ne v (List.ne_of_not_mem_cons hr)

/-- A register write keeps everything but the register. -/
theorem writeReg_frame (s : State) (r : RegIndex) (v : Byte) :
    KeepsRegs [r] s (s.writeReg r v) ∧ KeepsMemory [] s (s.writeReg r v) ∧ (s.writeReg r v).fl = s.fl ∧
      (s.writeReg r v).pc = s.pc ∧ KeepsStatus s (s.writeReg r v) ∧ KeepsStreams s (s.writeReg r v) :=
  ⟨keepsRegs_writeReg s r v, .of_mem_eq (s.writeReg_mem r v) _, s.writeReg_fl r v, s.writeReg_pc r v,
    ⟨s.writeReg_run r v, s.writeReg_fault r v⟩, s.writeReg_out r v, s.writeReg_diag r v⟩

theorem keepsRegs_incSp (s : State) : KeepsRegs [7] s s.incSp := keepsRegs_writeReg s 7 _

theorem keepsRegs_pushReg (s : State) (r : RegIndex) : KeepsRegs [7] s (s.pushReg r) :=
  keepsRegs_writeReg s 7 _

theorem incSp_sp_toNat (h : s.sp.toNat < 0xF4) : s.incSp.sp.toNat = s.sp.toNat + 1 := by
  have h1 : (1 : Byte).toNat = 1 := rfl
  rw [State.incSp_sp, BitVec.toNat_add, h1]
  omega

theorem sp_sub_one_toNat (v : Byte) : (v - 1).toNat = (v.toNat + 255) % 256 := by
  rw [byte_sub_toNat]
  rfl

theorem sp_sub_one_add_one (v : Byte) : v - 1 + 1 = v := BitVec.sub_add_cancel v 1

/-! ### The register file: writes that cancel -/

theorem State.writeReg_writeReg (s : State) (r : RegIndex) (v w : Byte) : (s.writeReg r v).writeReg r w = s.writeReg r w := by
  simp [State.writeReg]

theorem State.writeReg_readReg (s : State) (r : RegIndex) : s.writeReg r (s.readReg r) = s := by
  simp [State.writeReg, State.readReg]

/-! ### The arithmetic/logic group -/

/-- Settles O26, from the sum of bytes and the frame of a register write. -/
theorem addWritesSumModulo256 : Obligations.AddWritesSumModulo256 := by
  intro s a b ra rb ha hb
  refine ⟨_, exec_add ha hb, ?_, writeReg_frame s ra _⟩
  rw [State.readReg_writeReg_self, BitVec.toNat_add]

theorem byte_sub_toNat_int (u v : Byte) : ((u - v).toNat : Int) = ((u.toNat : Int) - (v.toNat : Int)) % 256 := by
  have hv := v.isLt
  rw [byte_sub_toNat]
  omega

/-- Settles O27: the integer remainder of a negative difference is the one of the difference plus 256. -/
theorem subWritesDifferenceModulo256 : Obligations.SubWritesDifferenceModulo256 := by
  intro s a b ra rb ha hb
  refine ⟨_, exec_sub ha hb, ?_, writeReg_frame s ra _⟩
  rw [State.readReg_writeReg_self, byte_sub_toNat_int]

/-- Settles O28, from the product of bytes and the frame of a register write. -/
theorem mulWritesProductModulo256 : Obligations.MulWritesProductModulo256 := by
  intro s a b ra rb ha hb
  refine ⟨_, exec_mul ha hb, ?_, writeReg_frame s ra _⟩
  rw [State.readReg_writeReg_self, BitVec.toNat_mul]

/-- The flags byte of a comparison, by the order of the two numbers. -/
theorem compareFlags_zeroExtend (u v : Byte) :
    (compareFlags u v).zeroExtend 8 = (if u.toNat = v.toNat then 0x01 else if u.toNat < v.toNat then 0x04 else 0x02) := by
  obtain ⟨rfl, hc⟩ | ⟨hlt, hc⟩ | ⟨hgt, hc⟩ := compareFlags_cases u v <;> rw [hc]
  · rw [if_pos rfl]; rfl
  · rw [if_neg hlt.ne, if_pos hlt]; rfl
  · rw [if_neg hgt.ne', if_neg hgt.not_gt]; rfl

/-- Settles O29: the flags write is the whole effect. -/
theorem cmpSetsExactlyOneFlag : Obligations.CmpSetsExactlyOneFlag := by
  intro s a b ra rb ha hb
  refine ⟨_, exec_cmp ha hb, ?_, fun r _ => s.writeFlags_readReg _ r, .of_mem_eq (s.writeFlags_mem _) _, s.writeFlags_pc _,
    ⟨s.writeFlags_run _, s.writeFlags_fault _⟩, s.writeFlags_out _, s.writeFlags_diag _⟩
  rw [State.writeFlags_fl, compareFlags_zeroExtend]

/-- Settles O30: after the two LDI the operands are `x` and `y`, and byte arithmetic is both the unsigned one and the two's-complement one
modulo 256. -/
theorem arithmeticLawsModulo256 : Obligations.ArithmeticLawsModulo256 := by
  refine ⟨0x04, 0x02, 0x01, by decide, by decide, by decide, fun s x y => ?_⟩
  have h0 : Names 0 0 := rfl
  have h1 : Names 1 1 := rfl
  have hx : ((s.writeReg 0 x).writeReg 1 y).readReg 0 = x := by
    rw [State.readReg_writeReg_of_ne _ y (by decide), State.readReg_writeReg_self]
  have hy : ((s.writeReg 0 x).writeReg 1 y).readReg 1 = y := State.readReg_writeReg_self _ 1 y
  refine ⟨_, _, _, _, _, _, exec_ldi h0, exec_ldi h1, exec_add h0 h1, exec_sub h0 h1, exec_mul h0 h1, exec_cmp h0 h1, ?_⟩
  simp only [hx, hy, State.readReg_writeReg_self]
  refine ⟨BitVec.toNat_add x y, byte_sub_toNat_int x y, BitVec.toNat_mul x y, BitVec.toInt_add x y, BitVec.toInt_sub,
    BitVec.toInt_mul x y, ?silent, ?order⟩
  case silent =>
    intro t ht
    simp only [List.mem_cons, List.not_mem_nil, or_false] at ht
    obtain rfl | rfl | rfl := ht <;> exact ⟨rfl, rfl, rfl⟩
  case order =>
    rw [State.writeFlags_fl, compareFlags_zeroExtend]
    obtain hlt | heq | hgt := lt_trichotomy x.toNat y.toNat
    · rw [if_neg hlt.ne, if_pos hlt, if_pos hlt]
    · rw [if_pos heq, if_neg heq.not_lt, if_neg heq.not_gt]
    · rw [if_neg hgt.ne', if_neg hgt.not_gt, if_neg hgt.not_gt, if_pos hgt]

/-- Settles O32: the difference is taken on the sum and the old `x[b]`, so the second write puts the old `x[a]` back. -/
theorem subUndoesAdd : Obligations.SubUndoesAdd := by
  intro s a b ra rb ha hb hne
  refine ⟨_, exec_add ha hb, ?_⟩
  rw [exec_sub ha hb, State.readReg_writeReg_self, s.readReg_writeReg_of_ne _ hne.symm, State.writeReg_writeReg,
    BitVec.add_sub_cancel, State.writeReg_readReg]

/-! ### The stack group -/

/-- PUSH reads the register after `SP` moved. -/
theorem pushReg_read_newSp (s : State) (r : RegIndex) :
    (s.pushReg r).mem.read (s.sp - 1).toNat = if r = 7 then s.sp - 1 else s.readReg r := by
  rw [State.pushReg_mem, Memory.read_write_self, State.readReg_writeReg]

/-- Settles O33: the value is `pushReg_read_newSp`, the frame that of the decrement and the store. -/
theorem pushStoresBelowStackPointer : Obligations.PushStoresBelowStackPointer := by
  intro s a ra ha
  refine ⟨_, exec_push ha, ?sp, pushReg_read_newSp s ra, keepsRegs_pushReg s ra, keepsMemory_pushReg s ra, s.pushReg_fl ra,
    s.pushReg_pc ra, ⟨s.pushReg_run ra, s.pushReg_fault ra⟩, s.pushReg_out ra, s.pushReg_diag ra⟩
  case sp => rw [State.pushReg_sp, sp_sub_one_toNat]

/-- The state a POP of the register `r` on a stack not empty leaves (R152). -/
def poppedState (s : State) (r : RegIndex) : State := (s.writeReg r (s.loadByte s.sp)).incSp

theorem exec_pop_eq_poppedState {a : Byte} (ha : Names a ra) (hsp : s.sp.toNat < 0xF4) :
    exec (.pop a) s = .next (poppedState s ra) := exec_pop ha hsp

theorem poppedState_readReg (s : State) {r : RegIndex} (h : r ≠ 7) : (poppedState s r).readReg r = s.mem.read s.sp.toNat :=
  s.readReg_incSp_writeReg_of_ne _ h

theorem poppedState_sp (s : State) {r : RegIndex} (h : r ≠ 7) : (poppedState s r).sp = s.sp + 1 := by
  rw [poppedState, State.incSp_sp, s.writeReg_sp_of_ne _ h]

/-- POP r7 increments the byte it has just put into `SP` (D29). -/
theorem poppedState_sp_of_sp (s : State) : (poppedState s 7).sp = s.mem.read s.sp.toNat + 1 := by
  rw [poppedState, State.incSp_sp, State.writeReg_sp]
  rfl

theorem keepsRegs_poppedState (s : State) (r : RegIndex) : KeepsRegs [r, 7] s (poppedState s r) := by
  intro r' hr'
  simp only [List.mem_cons, List.not_mem_nil, or_false, not_or] at hr'
  rw [poppedState, State.incSp_readReg, if_neg hr'.2, s.readReg_writeReg_of_ne _ hr'.1]

/-- Settles O34: below 0xF4 the increment does not wrap. -/
theorem popLoadsFromStackPointer : Obligations.PopLoadsFromStackPointer := by
  intro s a ra ha hsp
  refine ⟨_, exec_pop_eq_poppedState ha hsp, fun hne => ⟨poppedState_readReg s hne, ?spNext⟩, ?spPopped, keepsRegs_poppedState s ra,
    .of_mem_eq rfl _, rfl, rfl, ⟨rfl, rfl⟩, rfl, rfl⟩
  case spNext => rw [poppedState_sp s hne, ← incSp_sp_toNat hsp, State.incSp_sp]
  case spPopped =>
    rintro rfl
    rw [poppedState_sp_of_sp, BitVec.toNat_add]
    rfl

/-- Settles O35: the warning is the whole effect. -/
theorem popOnEmptyStackOnlyWarns : Obligations.PopOnEmptyStackOnlyWarns := fun _ _ _ ha hsp => exec_pop_empty ha hsp

/-- The state between the PUSH and the POP of R154: `x[a]` is on the stack and holds `w` instead. -/
def overwrittenAfterPush (s : State) (r : RegIndex) (w : Byte) : State := (s.pushReg r).writeReg r w

theorem overwrittenAfterPush_sp (s : State) {r : RegIndex} (w : Byte) (h : r ≠ 7) : (overwrittenAfterPush s r w).sp = s.sp - 1 := by
  rw [overwrittenAfterPush, State.writeReg_sp_of_ne _ _ h, State.pushReg_sp]

/-- The POP finds what the PUSH stored: `x[a]`, `SP` and every other register are as before. -/
theorem keepsRegs_pop_overwrittenAfterPush (s : State) {r : RegIndex} (w : Byte) (h : r ≠ 7) :
    KeepsRegs [] s (poppedState (overwrittenAfterPush s r w) r) := by
  intro r' _
  by_cases hsp : r' = 7
  · subst hsp
    have hpop := poppedState_sp (overwrittenAfterPush s r w) h
    rwa [overwrittenAfterPush_sp s w h, sp_sub_one_add_one] at hpop
  · by_cases hr : r' = r
    · subst hr
      rw [poppedState_readReg _ h, overwrittenAfterPush_sp s w h]
      exact s.pushReg_read_newSp_of_ne h
    · rw [keepsRegs_poppedState _ r r' (by simp [hr, hsp]), overwrittenAfterPush, State.readReg_writeReg_of_ne _ _ hr]
      exact keepsRegs_pushReg s r r' (by simp [hsp])

/-- Settles O37: the POP sees `SP - 1`, which is below 0xF4 exactly when `SP` is 0x01 to 0xF4. -/
theorem pushThenPopRoundTrips : Obligations.PushThenPopRoundTrips := by
  intro s a w ra ha hne
  have hmid := overwrittenAfterPush_sp s w hne
  have hnum : (overwrittenAfterPush s ra w).sp.toNat = (s.sp.toNat + 255) % 256 := by rw [hmid, sp_sub_one_toNat]
  have hlt := s.sp.isLt
  by_cases hsp : 1 ≤ s.sp.toNat ∧ s.sp.toNat ≤ 0xF4
  · refine ⟨_, _, _, exec_push ha, exec_ldi ha, exec_pop_eq_poppedState ha (s := overwrittenAfterPush s ra w) (by omega),
      fun _ _ => ⟨keepsRegs_pop_overwrittenAfterPush s w hne, keepsMemory_pushReg s ra, rfl⟩, fun hout => by omega⟩
  · refine ⟨_, _, _, exec_push ha, exec_ldi ha, exec_pop_empty ha (s := overwrittenAfterPush s ra w) (by omega),
      fun h1 h2 => absurd ⟨h1, h2⟩ hsp, fun _ => ⟨State.readReg_writeReg_self _ ra w, hmid, ?warned⟩⟩
    case warned => exact fun hdiag => List.cons_ne_nil _ _ (List.append_right_eq_self.mp hdiag)

/-! ### The control-flow group -/

theorem keepsRegs_calledState (s : State) (r : RegIndex) : KeepsRegs [6, 7] s (calledState s r) := by
  intro r' hr'
  simp only [List.mem_cons, List.not_mem_nil, or_false, not_or] at hr'
  rw [calledState_readReg, if_neg hr'.2, if_neg hr'.1]

theorem calledState_link (s : State) (r : RegIndex) : (calledState s r).readReg 6 = returnAddress s.pc := calledState_readReg 6

theorem calledState_read_newSp (s : State) (r : RegIndex) : (calledState s r).mem.read (s.sp - 1).toNat = returnAddress s.pc := by
  rw [calledState_mem, Memory.read_write_self]

theorem keepsMemory_calledState (s : State) (r : RegIndex) : KeepsMemory [(s.sp - 1).toNat] s (calledState s r) := by
  intro addr haddr
  rw [calledState_mem, Memory.read_write_of_ne _ _ (List.ne_of_not_mem_cons haddr)]

/-- Settles O38: the target is `x[a]` as `calledState_readReg` gives it. -/
theorem callPushesReturnAddressAndJumps : Obligations.CallPushesReturnAddressAndJumps := by
  intro s a ra ha
  refine ⟨_, exec_call ha, ?link, ?sp, ?pushed, ?target, keepsRegs_calledState s ra, keepsMemory_calledState s ra, calledState_fl,
    ⟨calledState_run, calledState_fault⟩, calledState_out, calledState_diag⟩
  case link => rw [calledState_link, returnAddress_toNat]
  case sp => rw [calledState_sp, sp_sub_one_toNat]
  case pushed => rw [calledState_read_newSp, returnAddress_toNat]
  case target =>
    rw [calledState_pc, zext9_toNat, calledState_readReg]
    by_cases h7 : ra = 7
    · subst h7
      rw [if_pos rfl, if_neg (by decide), if_pos rfl, sp_sub_one_toNat]
    · rw [if_neg h7, if_neg h7, apply_ite BitVec.toNat, returnAddress_toNat]

/-- The state a RET on a stack not empty leaves (R166). -/
def returnedState (s : State) : State := s.incSp.writePc (zext9 (s.loadByte s.sp))

theorem exec_ret_eq_returnedState (hsp : s.sp.toNat < 0xF4) : exec .ret s = .next (returnedState s) := exec_ret hsp

theorem returnedState_pc_toNat (s : State) : (returnedState s).pc.toNat = (s.mem.read s.sp.toNat).toNat := zext9_toNat _

theorem returnedState_sp (s : State) : (returnedState s).sp = s.sp + 1 := s.incSp_sp

/-- Settles O39, from the returned state and the frame of the increment. -/
theorem retJumpsToPoppedByte : Obligations.RetJumpsToPoppedByte :=
  fun s hsp => ⟨_, exec_ret_eq_returnedState hsp, returnedState_pc_toNat s, incSp_sp_toNat hsp, keepsRegs_incSp s, .of_mem_eq rfl _,
    rfl, ⟨rfl, rfl⟩, rfl, rfl⟩

/-- Settles O40: the target is the byte zero-extended. -/
theorem jmpSetsPcToRegister : Obligations.JmpSetsPcToRegister := by
  intro s a ra ha
  rw [exec_jmp ha, zext9, zeroExtend9_eq_ofNat]
  rfl

/-- Settles O41: `SP - 1` is below 0xF4, so the RET pops; the byte there is the return address, which is `pc + 2` without wrap. -/
theorem retResumesAfterCall : Obligations.RetResumesAfterCall := by
  intro s a ra ha hpc hlo hhi
  refine ⟨_, exec_call ha, fun u husp hubyte => ?_⟩
  rw [calledState_sp] at husp
  rw [calledState_sp, calledState_read_newSp] at hubyte
  have hpops : u.sp.toNat < 0xF4 := by
    rw [husp, sp_sub_one_toNat]
    omega
  refine ⟨_, exec_ret_eq_returnedState hpops, ?resumes, ?restores⟩
  case resumes =>
    rw [returnedState_pc_toNat, hubyte, returnAddress_toNat]
    omega
  case restores => rw [returnedState_sp, husp, sp_sub_one_add_one]

/-- Such a JMP's step gives back the state it began in. -/
theorem step_of_jump_to_itself {a x : Byte} (hf : Fetches s 0x54 a x) (ha : Names a ra)
    (hself : (s.readReg ra).toNat = s.pc.toNat) : step s = .next s := by
  have htarget : zext9 (s.readReg ra) = s.pc := BitVec.eq_of_toNat_eq ((zext9_toNat _).trans hself)
  rw [step_of_transfer hf (decode_opJmp a x) (exec_jmp ha) (.inr (.inr ⟨a, rfl⟩)), htarget]
  rfl

theorem runsTo_of_step_eq_self (h : step s = .next s) (k : Nat) : RunsTo k s s := by
  induction k with
  | zero => exact runsTo_zero.mpr rfl
  | succ k ih => exact runsTo_succ.mpr ⟨s, h, ih⟩

/-- Settles O42: every step gives back `s`, so every run does. -/
theorem jumpToItselfNeverEnds : Obligations.JumpToItselfNeverEnds := by
  intro s a x ra hf ha hself k
  have hrun := runsTo_of_step_eq_self (step_of_jump_to_itself hf ha hself) k
  exact ⟨hrun, s, hrun, by rw [hf.1]; decide⟩

/-! ### LDI, PRN, HLT -/

/-- Settles O43, from the frame of a register write. -/
theorem ldiWritesImmediate : Obligations.LdiWritesImmediate :=
  fun s _ imm ra ha => ⟨_, exec_ldi ha, s.readReg_writeReg_self ra imm, writeReg_frame s ra imm⟩

/-- Settles O44: the emission is the whole effect. -/
theorem prnAppendsRegisterToOutput : Obligations.PrnAppendsRegisterToOutput := fun _ _ _ ha => exec_prn ha

/-- Settles O45: HLT's handler writes `run` and nothing else. -/
theorem hltHaltsAndKeepsEverything : Obligations.HltHaltsAndKeepsEverything := fun _ => rfl

end Sys2Proof.Machine
end

section
/-! PROOFS of the whole-machine rules: what each instruction may touch, the invariant, and runs (10_state.md R26, R44, 70_reset_and_hazards.md). -/

namespace Sys2Proof.Machine

variable {s t u : State} {i : Instr} {ir opa opb : Byte} {j k : Nat}

/-! ### What an instruction may touch (R26, R32, R61) -/

theorem Effect.mem_eq_or (h : Effect s i t) : t.mem = s.mem ∨ (∃ a, i = .push a) ∨ ∃ a, i = .call a := by
  cases h with
  | push => exact .inr (.inl ⟨_, rfl⟩)
  | call => exact .inr (.inr ⟨_, rfl⟩)
  | badIndex | add | sub | mul | cmp | pop | popEmpty | ret | retEmpty | jmp | ldi | prn | hlt => exact .inl rfl

theorem Effect.fl_eq_or (h : Effect s i t) : t.fl = s.fl ∨ ∃ a b, i = .cmp a b := by
  cases h with
  | cmp => exact .inr ⟨_, _, rfl⟩
  | badIndex | add | sub | mul | push | pop | popEmpty | call | ret | retEmpty | jmp | ldi | prn | hlt => exact .inl rfl

theorem Effect.out_eq_or (h : Effect s i t) : t.out = s.out ∨ ∃ a, i = .prn a := by
  cases h with
  | prn => exact .inr ⟨_, rfl⟩
  | badIndex | add | sub | mul | cmp | push | pop | popEmpty | call | ret | retEmpty | jmp | ldi | hlt => exact .inl rfl

theorem Effect.diag_eq_or (h : Effect s i t) : t.diag = s.diag ∨ ∃ a, i = .pop a := by
  cases h with
  | popEmpty => exact .inr ⟨_, rfl⟩
  | badIndex | add | sub | mul | cmp | push | pop | call | ret | retEmpty | jmp | ldi | prn | hlt => exact .inl rfl

theorem Effect.run_eq_or (h : Effect s i t) : t.run = s.run ∨ t.run = .halted ∧ i = .hlt ∨ t.run = .faulted := by
  obtain ⟨hrun, -⟩ | ⟨rfl, rfl⟩ | ⟨f, -, rfl⟩ := h.run_cases
  · exact .inl hrun
  · exact .inr (.inl ⟨s.halt_run, rfl⟩)
  · exact .inr (.inr (s.raise_run f))

/-- Settles O47: one part of the state after the other. -/
theorem onlyNamedInstructionsTouchEachPart : Obligations.OnlyNamedInstructionsTouchEachPart := by
  intro i s t h
  have he := effect_of_exec h
  exact ⟨he.mem_eq_or.resolve_left, he.fl_eq_or.resolve_left, he.out_eq_or.resolve_left, he.diag_eq_or.resolve_left,
    he.run_eq_or.resolve_left⟩

/-- The registers an effect may move, by the instruction. -/
def MayWrite (i : Instr) (r : RegIndex) : Prop :=
  (∃ a b, Names a r ∧ (i = .add a b ∨ i = .sub a b ∨ i = .mul a b ∨ i = .ldi a b ∨ i = .pop a)) ∨
  (r = 7 ∧ ((∃ a, i = .push a ∨ i = .pop a ∨ i = .call a) ∨ i = .ret)) ∨
  (r = 6 ∧ ∃ a, i = .call a)

/-- A frame of one register moves that register at most. -/
theorem KeepsRegs.eq_of_ne {r r' : RegIndex} (h : KeepsRegs [r] s t) (hne : t.readReg r' ≠ s.readReg r') : r' = r := by
  by_contra hr
  exact hne (h r' (by simpa using hr))

theorem KeepsRegs.eq_or_eq_of_ne {r₁ r₂ r : RegIndex} (h : KeepsRegs [r₁, r₂] s t) (hne : t.readReg r ≠ s.readReg r) :
    r = r₁ ∨ r = r₂ := by
  by_contra hr
  exact hne (h r (by simpa using hr))

/-- Each effect's register frame names the registers it may move. -/
theorem Effect.mayWrite (h : Effect s i t) {r : RegIndex} (hne : t.readReg r ≠ s.readReg r) : MayWrite i r := by
  cases h with
  | add ha =>
    obtain rfl := (keepsRegs_writeReg s _ _).eq_of_ne hne
    exact .inl ⟨_, _, ha, .inl rfl⟩
  | sub ha =>
    obtain rfl := (keepsRegs_writeReg s _ _).eq_of_ne hne
    exact .inl ⟨_, _, ha, .inr (.inl rfl)⟩
  | mul ha =>
    obtain rfl := (keepsRegs_writeReg s _ _).eq_of_ne hne
    exact .inl ⟨_, _, ha, .inr (.inr (.inl rfl))⟩
  | ldi ha =>
    obtain rfl := (keepsRegs_writeReg s _ _).eq_of_ne hne
    exact .inl ⟨_, _, ha, .inr (.inr (.inr (.inl rfl)))⟩
  | pop ha =>
    obtain rfl | rfl := (keepsRegs_poppedState s _).eq_or_eq_of_ne hne
    · exact .inl ⟨_, 0, ha, .inr (.inr (.inr (.inr rfl)))⟩
    · exact .inr (.inl ⟨rfl, .inl ⟨_, .inr (.inl rfl)⟩⟩)
  | push =>
    obtain rfl := (keepsRegs_pushReg s _).eq_of_ne hne
    exact .inr (.inl ⟨rfl, .inl ⟨_, .inl rfl⟩⟩)
  | ret =>
    obtain rfl := (keepsRegs_incSp s).eq_of_ne hne
    exact .inr (.inl ⟨rfl, .inr rfl⟩)
  | call =>
    obtain rfl | rfl := (keepsRegs_calledState s _).eq_or_eq_of_ne hne
    · exact .inr (.inr ⟨rfl, _, rfl⟩)
    · exact .inr (.inl ⟨rfl, .inl ⟨_, .inr (.inr rfl)⟩⟩)
  | badIndex | cmp | popEmpty | retEmpty | jmp | prn | hlt => exact absurd rfl hne

/-- Settles O48: `MayWrite` is the list of the statement. -/
theorem onlyNamedRegistersChange : Obligations.OnlyNamedRegistersChange :=
  fun _ _ _ _ h hne => (effect_of_exec h).mayWrite hne

/-! ### A store is seen by the next fetch (R65, R247) -/

/-- The step of a PUSH: the store, and `pc` past the two bytes. -/
theorem step_of_push {ra : RegIndex} (hf : Fetches s 0x45 opa opb) (ha : Names opa ra) :
    step s = .next ((s.pushReg ra).writePc (sequentialPc 0x45 s.pc)) := by
  rw [step_of_exec hf (decode_opPush opa opb) (exec_push ha), afterHandler_advance (t := s.pushReg ra) hf.1 (by decide)]

theorem sequentialPc_push_toNat {p : PcWord} (h : p.toNat ≤ 253) : (sequentialPc 0x45 p).toNat = p.toNat + 2 := by
  rw [sequentialPc_toNat _ h]
  rfl

/-- Settles O51: `pc` moves to the address of the store, and the two bytes above it are not the stored one. -/
theorem pushedByteIsFetchedNext : Obligations.PushedByteIsFetchedNext := by
  intro s a x ra hf ha hne hsp hpc
  have hpc' := sequentialPc_push_toNat hf.2.1
  refine ⟨_, step_of_push hf ha, hf.1, ?_, ?_, ?_, ?_⟩ <;> rw [State.writePc_pc, hpc']
  · omega
  · rw [← hsp]
    exact s.pushReg_read_newSp_of_ne hne
  · exact keepsMemory_pushReg s ra _ (by simp only [hsp, List.mem_singleton]; omega)
  · exact keepsMemory_pushReg s ra _ (by simp only [hsp, List.mem_singleton]; omega)

/-! ### The invariant holds at the start (R43, R67) -/

/-- Settles O52, field by field. -/
theorem resetMeetsInvariant : Obligations.ResetMeetsInvariant where
  mem_wf := State.reset_mem_wf
  fl_legal := .inl rfl
  pc_range := by decide
  halted_pc := fun h => nomatch h
  latched_iff := by decide
  latches_legal := fun _ h => nomatch h

/-- Settles O53: the load replaces the memory of the reset state by another canonical one. -/
theorem loadedStateMeetsInvariant : Obligations.LoadedStateMeetsInvariant := by
  intro image base s h
  obtain ⟨hfit, rfl⟩ := State.resetWith_eq_some_iff.mp h
  exact { resetMeetsInvariant with mem_wf := Memory.wf_loadImage State.reset_mem_wf hfit }

/-! ### Every step keeps the invariant (R30, R32, R35, R44) -/

theorem Effect.mem_wf (h : Effect s i t) (hs : s.mem.wf) : t.mem.wf := by
  cases h with
  | push => exact State.pushReg_wf hs _
  | call => exact calledState_mem (s := s) ▸ Memory.wf_write hs (s.sp - 1).isLt _
  | badIndex | add | sub | mul | cmp | pop | popEmpty | ret | retEmpty | jmp | ldi | prn | hlt => exact hs

/-- CMP writes one of the three flags, and no other instruction writes the byte. -/
theorem Effect.fl_legal (h : Effect s i t) (hs : s.fl = 0x00 ∨ s.fl = 0x01 ∨ s.fl = 0x02 ∨ s.fl = 0x04) :
    t.fl = 0x00 ∨ t.fl = 0x01 ∨ t.fl = 0x02 ∨ t.fl = 0x04 := by
  cases h with
  | @cmp a b ra rb =>
    rw [State.writeFlags_fl, compareFlags_zeroExtend]
    split
    · exact .inr (.inl rfl)
    · split
      · exact .inr (.inr (.inr rfl))
      · exact .inr (.inr (.inl rfl))
  | badIndex | add | sub | mul | push | pop | popEmpty | call | ret | retEmpty | jmp | ldi | prn | hlt => exact hs

theorem zext9_le_256 (v : Byte) : (zext9 v).toNat ≤ 256 := by
  rw [zext9_toNat]
  exact v.isLt.le

/-- A handler writes a byte to `pc` or leaves it alone. -/
theorem Effect.pc_le (h : Effect s i t) (hs : s.pc.toNat ≤ 256) : t.pc.toNat ≤ 256 := by
  cases h with
  | call => exact zext9_le_256 _
  | ret => exact zext9_le_256 _
  | jmp => exact zext9_le_256 _
  | badIndex | add | sub | mul | cmp | push | pop | popEmpty | retEmpty | ldi | prn | hlt => exact hs

/-- No opcode of the twelve has more than two operands, so past an instruction `pc` is at most 256. -/
theorem sequentialPc_le_of_decode_ok {p : PcWord} (h : decode { ir := ir, opa := opa, opb := opb } = .ok i) (hp : p.toNat ≤ 253) :
    (sequentialPc ir p).toNat ≤ 256 := by
  have hlen : i.operands.length = (opcodeArity ir).toNat := operands_length_of_decode_ok h
  have htwo := operands_length_le_two i
  rw [sequentialPc_toNat ir hp]
  omega

namespace State.Inv

/-- Before a step the machine runs, so the latches are empty. -/
theorem fault_eq_none (h : s.Inv) (hr : s.run = .running) : s.fault = none := by
  rw [← Option.not_isSome_iff_eq_none, h.latched_iff, hr]
  decide

theorem raise {f : FatalFault} (h : s.Inv) (hf : f.InRange) : (s.raise f).Inv where
  mem_wf := h.mem_wf
  fl_legal := h.fl_legal
  pc_range := h.pc_range
  halted_pc := fun hrun => nomatch hrun
  latched_iff := ⟨fun _ => rfl, fun _ => rfl⟩
  latches_legal := by
    rintro _ ⟨⟩
    exact ⟨hf.legal s.pc, rfl⟩

theorem halt (h : s.Inv) (hpc : s.pc.toNat ≤ 253) (hfault : s.fault = none) : s.halt.Inv where
  mem_wf := h.mem_wf
  fl_legal := h.fl_legal
  pc_range := h.pc_range
  halted_pc := fun _ => hpc
  latched_iff := by simp [hfault]
  latches_legal := by simp [hfault]

/-- A running state with empty latches has no more to meet than memory, flags and `pc`. -/
theorem of_running (hr : s.run = .running) (hfault : s.fault = none) (hmem : s.mem.wf)
    (hfl : s.fl = 0x00 ∨ s.fl = 0x01 ∨ s.fl = 0x02 ∨ s.fl = 0x04) (hpc : s.pc.toNat ≤ 256) : s.Inv where
  mem_wf := hmem
  fl_legal := hfl
  pc_range := hpc
  halted_pc := by simp [hr]
  latched_iff := by simp [hr, hfault]
  latches_legal := by simp [hfault]

theorem writePc (h : s.Inv) (hr : s.run = .running) (hfault : s.fault = none) {p : PcWord} (hp : p.toNat ≤ 256) :
    (s.writePc p).Inv :=
  of_running hr hfault h.mem_wf h.fl_legal hp

/-- A handler that goes on keeps the invariant. -/
theorem of_effect (h : s.Inv) (he : Effect s i u) (hr : u.run = .running) (hfault : u.fault = none) : u.Inv :=
  of_running hr hfault (he.mem_wf h.mem_wf) (he.fl_legal h.fl_legal) (he.pc_le h.pc_range)

end State.Inv

/-- Settles O54, by the three ends of a step; where the machine goes on, the handler keeps the invariant and then the loop does. -/
theorem stepKeepsInvariant : Obligations.StepKeepsInvariant := by
  intro s t hs hstep
  have hnone := hs.fault_eq_none (step_cases hstep).1
  cases stepEnd_of_step hstep with
  | faults hf => exact hs.raise (hf hs.pc_range)
  | halts hpc => exact hs.halt hpc hnone
  | @goesOn ir _ _ _ u hf hd he hr hfault =>
    have hu : u.Inv := hs.of_effect he hr (hfault.trans hnone)
    obtain hkept | ⟨-, hadvanced⟩ := afterHandler_cases ir s.pc u
    · rwa [hkept]
    · rw [hadvanced]
      exact hu.writePc hr (hfault.trans hnone) (sequentialPc_le_of_decode_ok hd hf.2.1)

/-- Settles O55: the load meets the invariant, and every step keeps it. -/
theorem everyRunFromALoadMeetsInvariant : Obligations.EveryRunFromALoadMeetsInvariant :=
  fun image base s _ _ hload hrun => run_keeps stepKeepsInvariant hrun (loadedStateMeetsInvariant image base s hload)

/-! ### How runs end (R251) -/

/-- Settles O56: the run has a last step, and that step halted the machine. -/
theorem cleanEndExecutedHltLast : Obligations.CleanEndExecutedHltLast := by
  intro k s t hs hrun hhalt
  cases k with
  | zero =>
    obtain rfl := runsTo_zero.mp hrun
    rw [hs] at hhalt
    cases hhalt
  | succ j =>
    obtain ⟨u, hu, hstep⟩ := runsTo_succ_last.mp hrun
    obtain ⟨hpc, hir, ht⟩ := halting_step hstep hhalt
    exact ⟨j, u, rfl, hu, (step_cases hstep).1, hpc, hir, ht⟩

/-- A run of `j + k` steps passes through the state `j` steps lead to. -/
theorem runsTo_of_runsTo_add (hj : RunsTo j s u) (h : RunsTo (j + k) s t) : RunsTo k u t := by
  induction j generalizing s with
  | zero =>
    obtain rfl := runsTo_zero.mp hj
    rwa [Nat.zero_add] at h
  | succ j ih =>
    rw [Nat.succ_add] at h
    obtain ⟨v, hv, hj⟩ := runsTo_succ.mp hj
    obtain ⟨v', hv', h⟩ := runsTo_succ.mp h
    obtain rfl := Host.Outcome.next.inj (hv.symm.trans hv')
    exact ih hj h

/-- A stopped machine takes no step (R100). -/
theorem eq_of_runsTo_of_stopped (hs : s.run ≠ .running) (h : RunsTo k s t) : t = s := by
  cases k with
  | zero => exact runsTo_zero.mp h
  | succ k =>
    obtain ⟨u, hu, -⟩ := runsTo_succ.mp h
    exact absurd (step_cases hu).1 hs

/-- A step that does not fault began in range on a known opcode. -/
theorem fetched_known_of_step (hstep : step s = .next t) (hrun : t.run ≠ .faulted) :
    s.pc.toNat ≤ 253 ∧ s.mem.read s.pc.toNat ∈ opcodes := by
  cases stepEnd_of_step hstep with
  | faults => exact absurd (s.raise_run _) hrun
  | halts hpc hir => exact ⟨hpc, hir ▸ by decide⟩
  | goesOn hf hd => exact ⟨hf.2.1, hf.2.2.1 ▸ (opcode_of_decode_ok hd).1⟩

/-- Settles O57: the step from `u` does not fault, for a faulted machine would stay so to the end of the run. -/
theorem safeRunFetchesOnlyKnownOpcodesInBounds : Obligations.SafeRunFetchesOnlyKnownOpcodesInBounds := by
  rintro k j s u ⟨t, hrun, hsafe⟩ hlt hu
  obtain ⟨m, rfl⟩ := Nat.exists_eq_add_of_lt hlt
  obtain ⟨v, hstep, hrest⟩ := runsTo_succ.mp (runsTo_of_runsTo_add (k := m + 1) hu hrun)
  have hv : v.run ≠ .faulted := by
    intro hfaulted
    have htv : t = v := eq_of_runsTo_of_stopped (by rw [hfaulted]; decide) hrest
    exact hsafe (htv ▸ hfaulted)
  exact ⟨(step_cases hstep).1, fetched_known_of_step hstep hv⟩

/-- Settles O58, by the three run states. -/
theorem exitStatusTellsHaltFromFault : Obligations.ExitStatusTellsHaltFromFault := by
  intro s
  cases hr : s.run <;> simp [State.exitStatus, hr]

end Sys2Proof.Machine
end
